-- ==== Sys2Proof/Word.lean ====
section
/-! DEFINITION. The word types of the engine: the widths of 00_scope.md R9 and 10_state.md R20 under the spec's names. -/

namespace Sys2Proof

/-- A command word (`CMD_WIDTH` = 16, R9, R60). -/
abbrev CmdWord := BitVec 16

/-- A 12-bit two's-complement sample or estimate (`SAMPLE_WIDTH` = 12, R9, R15). -/
abbrev Sample := BitVec 12

/-- A 4-bit ADPCM code (`CODE_WIDTH` = 4, R9, R69). -/
abbrev Code := BitVec 4

/-- A packed byte holding two codes (R70). -/
abbrev Byte := BitVec 8

end Sys2Proof
end

