-- ==== Sys2Proof/Config.lean ====
section
/-! DEFINITION. The parameters of 00_scope.md R9 that fix the shape of the two constant tables. Their contents stand in
Machine/Tables.lean; the table a machine really holds stands in State (log 1). -/

namespace Sys2Proof

/-- `STEP_COUNT` (R9): entries of the step-size table. -/
abbrev Config.stepCount : Nat := 49

/-- `IDX_MAX` (R9): the largest step index. -/
abbrev Config.idxMax : Nat := 48

/-- `ADJUST_COUNT` (R9): entries of the step-index adjustment table. -/
abbrev Config.adjustCount : Nat := 16

/-- A step index. The type has exactly the legal values 0 to 48 (R22, R23; 93_implementation_defined.md I10; log 8). -/
abbrev StepIndex := Fin Config.stepCount

/-- Contents of the step-size table (R40). Entries are natural numbers, so that every table the parameter
`STEP_TABLE` may take fits (R9 `STEP_WIDTH`, R10; log 9). -/
abbrev StepTable := Vector Nat Config.stepCount

end Sys2Proof
end

