-- ==== Sys2Proof/Syntax.lean ====
section
/-! DEFINITION. The commands: one constructor per row of spec/opcode_table.json (30_encoding.md R61), each with the operand its
format carries (R62), and the three ways a word can be no command (60_exceptions.md R201). -/

namespace Sys2Proof

/-- The eight mnemonics of the opcode map (R61). -/
inductive Mnemonic where
  | nop | init | enc | dec | decb | flush | ldest | ldidx
  deriving DecidableEq, Repr

/-- A command with its operand. -/
inductive Instr where
  /-- NOP, format N (R161). -/
  | nop
  /-- INIT, format N (R162). -/
  | init
  /-- ENC, format S12: the sample's 12-bit pattern (R111). -/
  | enc (sample : Sample)
  /-- DEC, format C4: a code (R112). -/
  | dec (code : Code)
  /-- DECB, format B8: a packed byte (R113). -/
  | decb (byte : Byte)
  /-- FLUSH, format N (R143). -/
  | flush
  /-- LDEST, format S12: the estimate's 12-bit pattern (R114). -/
  | ldest (estimate : Sample)
  /-- LDIDX, format U6: the operand field, which must be at most 48 (R115). -/
  | ldidx (index : BitVec 6)
  deriving DecidableEq, Repr

/-- The row of the opcode map a command belongs to. -/
def Instr.mnemonic : Instr → Mnemonic
  | .nop => .nop
  | .init => .init
  | .enc _ => .enc
  | .dec _ => .dec
  | .decb _ => .decb
  | .flush => .flush
  | .ldest _ => .ldest
  | .ldidx _ => .ldidx

/-- The command errors that can be raised (R201, causes 1, 2 and 3; there are no others, 93_implementation_defined.md I9,
I11). -/
inductive CommandError where
  /-- Cause 1, ILLEGAL_OPCODE: an opcode of 8 or more (R63). -/
  | illegalOpcode
  /-- Cause 2, RESERVED_BITS: a defined opcode with a nonzero reserved bit (R64). -/
  | reservedBits
  /-- Cause 3, OPERAND_RANGE: LDIDX with an operand above 48 (R65). -/
  | operandRange
  deriving DecidableEq, Repr

end Sys2Proof
end

