-- ==== Sys2Proof/WellFormed.lean ====
section
/-! DEFINITION. Which commands have an encoding that the engine accepts. The types of the operands carry every check but one:
the range of LDIDX's operand (30_encoding.md R62, R65). -/

namespace Sys2Proof

/-- A command some word encodes: an LDIDX operand is at most 48 (R65); every other operand is legal (R62, R65). -/
def Instr.wellFormed : Instr → Bool
  | .nop => true
  | .init => true
  | .enc _ => true
  | .dec _ => true
  | .decb _ => true
  | .flush => true
  | .ldest _ => true
  | .ldidx k => decide (k.toNat ≤ Config.idxMax)

end Sys2Proof
end

