-- ==== Sys2Proof/Decode.lean ====
section
/-! DEFINITION. The decoder: the checks of 42_control.md R160 in their order, then the operand assembly of 30_encoding.md R62; it
answers for every one of the 65536 words. After it the encoder, written from the same opcode map (R61). -/

namespace Sys2Proof

/-- What a command word is: a command, or a word rejected by name. -/
inductive Decoded where
  | command (i : Instr)
  | rejected (e : CommandError)
  deriving DecidableEq, Repr

/-- `op = cmd[15:12]` (R60). -/
def opcodeOf (w : CmdWord) : BitVec 4 := w.extractLsb' 12 4

/-- `opnd = cmd[11:0]` (R60). -/
def operandOf (w : CmdWord) : BitVec 12 := w.extractLsb' 0 12

/-- `RESERVED_MASK[op]` (R160). The table ends at op 7; an opcode above it has been rejected before the mask is read
(R160), so its row is never used. -/
def reservedMask (op : BitVec 4) : BitVec 12 :=
  match op with
  | 0x0#4 => 0xFFF#12
  | 0x1#4 => 0xFFF#12
  | 0x2#4 => 0x000#12
  | 0x3#4 => 0xFF0#12
  | 0x4#4 => 0xF00#12
  | 0x5#4 => 0xFFF#12
  | 0x6#4 => 0x000#12
  | 0x7#4 => 0xFC0#12
  | _ => 0x000#12

/-- The command of a defined opcode, its operand taken from its own bits of the word (R62). -/
def operation (w : CmdWord) : Decoded :=
  match opcodeOf w with
  | 0x0#4 => .command .nop
  | 0x1#4 => .command .init
  | 0x2#4 => .command (.enc (w.extractLsb' 0 12))
  | 0x3#4 => .command (.dec (w.extractLsb' 0 4))
  | 0x4#4 => .command (.decb (w.extractLsb' 0 8))
  | 0x5#4 => .command .flush
  | 0x6#4 => .command (.ldest (w.extractLsb' 0 12))
  | 0x7#4 => .command (.ldidx (w.extractLsb' 0 6))
  | _ => .rejected .illegalOpcode

/-- The decoder: the three checks in cause order, then the dispatch on `op` (R160, R202). -/
def decode (w : CmdWord) : Decoded :=
  if 8 ≤ (opcodeOf w).toNat then .rejected .illegalOpcode
  else if operandOf w &&& reservedMask (opcodeOf w) ≠ 0#12 then .rejected .reservedBits
  else if opcodeOf w = 0x7#4 ∧ Config.idxMax < (w.extractLsb' 0 6).toNat then .rejected .operandRange
  else operation w

/-- The command word of a command (R61). An LDIDX operand above 48 has its word too, one the decoder rejects (R65). -/
def encode : Instr → CmdWord
  | .nop => 0x0000#16
  | .init => 0x1000#16
  | .enc s => 0x2#4 ++ s
  | .dec c => 0x300#12 ++ c
  | .decb b => 0x40#8 ++ b
  | .flush => 0x5000#16
  | .ldest e => 0x6#4 ++ e
  | .ldidx k => 0x1C0#10 ++ k

/-- The match column of the opcode map (R61). -/
def Mnemonic.matchBits : Mnemonic → CmdWord
  | .nop => 0x0000#16
  | .init => 0x1000#16
  | .enc => 0x2000#16
  | .dec => 0x3000#16
  | .decb => 0x4000#16
  | .flush => 0x5000#16
  | .ldest => 0x6000#16
  | .ldidx => 0x7000#16

/-- The mask column of the opcode map (R61). -/
def Mnemonic.maskBits : Mnemonic → CmdWord
  | .nop => 0xFFFF#16
  | .init => 0xFFFF#16
  | .enc => 0xF000#16
  | .dec => 0xFFF0#16
  | .decb => 0xFF00#16
  | .flush => 0xFFFF#16
  | .ldest => 0xF000#16
  | .ldidx => 0xFFC0#16

/-- The command word whose bits are the low `nbits` bits of `w`, every bit above them zero. A command is one parallel
16-bit word (R48, R60), so there are no later words and no byte order. -/
def tableWord (nbits w : Nat) : CmdWord := BitVec.ofNat 16 (w % 2 ^ nbits)

/-- The command the decoder reads from an opcode-table word, none where it refuses. -/
def decodeTableWord (nbits w : Nat) : Option Instr :=
  match decode (tableWord nbits w) with
  | .command i => some i
  | .rejected _ => none

end Sys2Proof
end

