-- ==== Sys2Proof/Machine/Operands.lean ====
section
/-! DEFINITION. The integer notation of 00_scope.md (R12 to R15), the operand forms of 30_encoding.md R62 as values, and the
narrowing of an integer to a register (R12). -/

namespace Sys2Proof.Machine

/-- `clamp(v, lo, hi)` (R14). -/
def clamp (v lo hi : Int) : Int := if v < lo then lo else if hi < v then hi else v

/-- `sext_12` of a 12-bit pattern (R15): the operand of ENC and LDEST (format S12), and `EST` read as an integer. -/
def sext12 (x : Sample) : Int := x.toInt

/-- `b[3:0]`, the code of the pair that comes first (R45, R47, R70). -/
def lowNibble (b : Byte) : Code := b.extractLsb' 0 4

/-- `b[7:4]`, the code of the pair that comes second (R45, R47, R70). -/
def highNibble (b : Byte) : Code := b.extractLsb' 4 4

/-- `(high << 4) | low` (R70, R141). -/
def packByte (high low : Code) : Byte := (high.setWidth 8 <<< 4) ||| low.setWidth 8

/-- The low 12 bits of an integer, as an assignment to `EST` keeps them (R12). Every value the rules assign fits
(R118; log 15). -/
def narrowEst (v : Int) : Sample := BitVec.ofInt 12 v

/-- The step index an integer is, as an assignment to `IDX` keeps it (R12). Every value the rules assign is in [0, 48]
(R106, R118); outside it nothing is claimed (log 15). -/
def narrowIdx (v : Int) : StepIndex := Fin.ofNat Config.stepCount v.toNat

end Sys2Proof.Machine
end

