-- ==== Sys2Proof/Machine/Tables.lean ====
section
/-! DEFINITION. The contents of the two constant tables (20_memory.md R40 to R43; 40_codec.md R100, R101). -/

namespace Sys2Proof.Machine

/-- The default `STEP_TABLE` (R100; 93_implementation_defined.md G1). PRESUMED: entries 1 to 48 are the spec's general
knowledge, only entry 0 is in its source (R10; log 2). -/
def defaultStepTable : StepTable :=
  #v[16, 17, 19, 21, 23, 25, 28, 31, 34, 37,
     41, 45, 50, 55, 60, 66, 73, 80, 88, 97,
     107, 118, 130, 143, 157, 173, 190, 209, 230, 253,
     279, 307, 337, 371, 408, 449, 494, 544, 598, 658,
     724, 796, 876, 963, 1060, 1166, 1282, 1411, 1552]

/-- `STEP_ADJUST`: sixteen 5-bit two's-complement entries indexed by the code (R41, R101). -/
def stepAdjustRom : Vector (BitVec 5) Config.adjustCount :=
  #v[-1, -1, -1, -1, 2, 4, 6, 8, -1, -1, -1, -1, 2, 4, 6, 8]

/-- `STEP_TABLE[n]` (R16, R102). -/
def stepSize (tbl : StepTable) (n : StepIndex) : Nat := tbl[n]

/-- `STEP_ADJUST[c]` as the signed integer it holds (R41, R101). -/
def stepAdjust (c : Code) : Int := (stepAdjustRom[c.toFin]).toInt

end Sys2Proof.Machine
end

