-- ==== Sys2Proof/Machine/State.lean ====
section
/-! DEFINITION. The state of the engine (10_state.md R20), its two constant memories' variable part, the command port and the
output channels; the ways a step can stop; and the state right after reset (R34). -/

namespace Sys2Proof.Machine

/-- The value of the `CAUSE` register. Values 4 to 15 are never written, so the type has exactly the four legal ones (R28;
93_implementation_defined.md I9). -/
inductive Cause where
  /-- 0, NONE: the value while `ERR = 0` (R201). -/
  | none
  /-- 1, ILLEGAL_OPCODE (R201). -/
  | illegalOpcode
  /-- 2, RESERVED_BITS (R201). -/
  | reservedBits
  /-- 3, OPERAND_RANGE (R201). -/
  | operandRange
  deriving DecidableEq, Repr

/-- What the host can hand the engine: a command word, or a hardware reset (R33; log 4). -/
inductive HostInput where
  /-- One 16-bit word on the command port (R48, R60). -/
  | command (word : CmdWord)
  /-- Hardware reset (R220). -/
  | reset
  deriving DecidableEq, Repr

/-- What the engine can hand the host (R37, R50). -/
inductive Output where
  /-- One element of BYTE_OUT. -/
  | byte (value : Byte)
  /-- One element of PCM_OUT, a 12-bit two's-complement number (R55). -/
  | sample (value : Sample)
  deriving DecidableEq, Repr

/-- The machine. The first eight fields are the engine's architectural state, exactly the registers of R20; then the ROM
that varies from engine to engine; then what lies between host and engine. -/
structure State where
  /-- `EST`, the estimate (R21). -/
  est : Sample
  /-- `IDX`, the step index (R22, R23). -/
  idx : StepIndex
  /-- `CODE`, the last code produced or consumed (R24). -/
  code : Code
  /-- `PK_HOLD`, the low nibble of the byte being assembled (R25). -/
  pkHold : Code
  /-- `PK_HALF`: a nibble is held (R26). -/
  pkHalf : Bool
  /-- `ERR`, the sticky error flag (R27). -/
  err : Bool
  /-- `CAUSE`, the cause of the first rejected command since reset (R28). -/
  cause : Cause
  /-- `ERR_CMD`, the word of the first rejected command since reset (R29). -/
  errCmd : CmdWord
  /-- The contents of the `STEP_TABLE` ROM, which nothing writes (R10, R40, R42; log 1). -/
  stepTable : StepTable
  /-- The inputs the host has issued and the engine has not yet taken, in issue order (R52; log 3). -/
  port : List HostInput
  /-- Everything emitted so far, both channels together, in execution order (R37, R52; log 6). -/
  out : List Output
  deriving DecidableEq, Repr

/-- No reason to stop with a fault exists: a malformed command is recorded in the error registers and the engine goes on
(R203, R204), and nothing else raises anything (R107, R142, R200). Safe: there is no value of this type. -/
inductive Fault where
  deriving DecidableEq, Repr

/-- Why a step has no meaning. -/
inductive Refusal where
  /-- Raised by `exec` alone, for an instruction whose meaning is not written; no arm of this model raises it. Safe: the
  step stops where the hardware would go on. -/
  | notModelled (mnemonic : String)
  deriving DecidableEq, Repr

/-- The machine right after reset: every register at its value of R34, the default step table in its ROM (R100; PRESUMED,
log 2), nothing issued and nothing emitted (DESIGN CHOICE, log 3 and log 6). -/
def State.reset : State where
  est := 0#12
  idx := 0
  code := 0#4
  pkHold := 0#4
  pkHalf := false
  err := false
  cause := .none
  errCmd := 0x0000#16
  stepTable := defaultStepTable
  port := []
  out := []

end Sys2Proof.Machine
end

