-- ==== Sys2Proof/Machine/Ops.lean ====
section
/-! DEFINITION. The named operations on the state: register writes, the two emit primitives (00_scope.md R16), taking an input,
raising a command error (60_exceptions.md R203) and hardware reset (70_reset_and_hazards.md R220). -/

namespace Sys2Proof.Machine

/-- `EST <- v` (R16, R12). -/
def setEst (v : Int) (s : State) : State := { s with est := narrowEst v }

/-- `IDX <- v` (R16, R12). -/
def setIdx (v : Int) (s : State) : State := { s with idx := narrowIdx v }

/-- `CODE <- c` (R24). -/
def setCode (c : Code) (s : State) : State := { s with code := c }

/-- `PK_HOLD <- c` and `PK_HALF <- h` (R25, R26). -/
def setPacker (c : Code) (h : Bool) (s : State) : State := { s with pkHold := c, pkHalf := h }

/-- `EmitByte(b)`: append to BYTE_OUT (R16, R37). -/
def emitByte (b : Byte) (s : State) : State := { s with out := s.out ++ [.byte b] }

/-- `EmitSample(v)`: append to PCM_OUT (R16, R37, R55). -/
def emitSample (v : Int) (s : State) : State := { s with out := s.out ++ [.sample (narrowEst v)] }

/-- The value recorded in `CAUSE` for an error (R201). -/
def causeOf : CommandError → Cause
  | .illegalOpcode => .illegalOpcode
  | .reservedBits => .reservedBits
  | .operandRange => .operandRange

/-- `raise CommandError(e)` for the command word `w` (R203): the first error since reset is recorded, a later one changes
nothing, and the engine goes on in the same mode with its next input (R204). There is no trap entry and no return (R204,
R205). -/
def raiseError (e : CommandError) (w : CmdWord) (s : State) : State :=
  if s.err then s else { s with err := true, cause := causeOf e, errCmd := w }

/-- The engine's registers set to `(0, 0)`, no code and an empty packer: what INIT writes (R162), and what hardware reset
writes beside the error registers (R221). -/
def clearConversion (s : State) : State :=
  setPacker 0#4 false (setCode 0#4 (setIdx 0 (setEst 0 s)))

/-- Hardware reset of a running engine (R220): every register at its value of R34, nothing emitted, the tables unchanged.
What the host has issued after it and what has been emitted before it stay (DESIGN CHOICE, log 4 and log 6). -/
def hardwareReset (s : State) : State :=
  { clearConversion s with err := false, cause := .none, errCmd := 0x0000#16 }

/-- The next input in issue order, and the state in which it has been taken (R52, point 1). -/
def takeInput (s : State) : Option (HostInput × State) :=
  match s.port with
  | [] => none
  | x :: rest => some (x, { s with port := rest })

/-- A command word put at the head of the port, so that it is the next input taken. -/
def issueFirst (w : CmdWord) (s : State) : State := { s with port := .command w :: s.port }

end Sys2Proof.Machine
end

