-- ==== Sys2Proof/Machine/Packer.lean ====
section
/-! DEFINITION. The nibble packer of 41_packer.md: PACK (R141), which only ENC calls (R140), and the command FLUSH (R143). -/

namespace Sys2Proof.Machine

/-- `PACK(c)`: hold the first code of a pair, emit the byte at the second (R141). -/
def pack (c : Code) (s : State) : State :=
  if s.pkHalf then setPacker 0#4 false (emitByte (packByte c s.pkHold) s) else setPacker c true s

/-- FLUSH: emit a pending half-filled byte with high nibble 0; no effect when none is pending (R143). -/
def execFlush (s : State) : Host.Outcome State Fault Refusal :=
  if s.pkHalf then .next (setPacker 0#4 false (emitByte (s.pkHold.setWidth 8) s)) else .next s

end Sys2Proof.Machine
end

