-- ==== Sys2Proof/Machine/Codec.lean ====
section
/-! DEFINITION. The ADPCM codec of 40_codec.md: DECODE (R103), QUANT (R108), ENCODE (R109), each over a step table given as an
argument (00_scope.md R10), and the commands ENC, DEC, DECB, LDEST and LDIDX (R111 to R115). -/

namespace Sys2Proof.Machine

/-- The magnitude sum of DECODE for step size `ss`: the unconditional eighth, then the terms of code bits 0, 1 and 2
(R103). -/
def deltaMagnitude (ss : Nat) (c : Code) : Nat :=
  (ss >>> 3) + (if c.getLsbD 0 then ss >>> 2 else 0) + (if c.getLsbD 1 then ss >>> 1 else 0)
    + (if c.getLsbD 2 then ss else 0)

/-- `delta` of DECODE: the magnitude sum, negated when code bit 3 is set (R103, R104). -/
def delta (ss : Nat) (c : Code) : Int :=
  if c.getLsbD 3 then -(deltaMagnitude ss c : Int) else (deltaMagnitude ss c : Int)

/-- `DECODE(c, n, e) = (e', n')` over the table `tbl`, for every integer `e` (R103, R105, R106, R116). -/
def decodeSample (tbl : StepTable) (c : Code) (n : StepIndex) (e : Int) : Int × Int :=
  (clamp (e + delta (stepSize tbl n) c) (-2048) 2047, clamp ((n.val : Int) + stepAdjust c) 0 48)

/-- The magnitude bits QUANT finds for the distance `m`: thresholds largest first, each compared with `>=` against the
remainder the tests before it left (R108). -/
def quantMagnitude (ss : Nat) (m : Int) : Code :=
  let bit2 := decide ((ss : Int) ≤ m)
  let m2 := if bit2 then m - (ss : Int) else m
  let bit1 := decide (((ss >>> 1 : Nat) : Int) ≤ m2)
  let m1 := if bit1 then m2 - ((ss >>> 1 : Nat) : Int) else m2
  let bit0 := decide (((ss >>> 2 : Nat) : Int) ≤ m1)
  (if bit2 then 4#4 else 0#4) ||| (if bit1 then 2#4 else 0#4) ||| (if bit0 then 1#4 else 0#4)

/-- `QUANT(s, e, n)` over the table `tbl`: the sign of `s - e`, then the greedy magnitude of its absolute value (R108). -/
def quantize (tbl : StepTable) (s e : Int) (n : StepIndex) : Code :=
  if s - e < 0 then 8#4 ||| quantMagnitude (stepSize tbl n) (-(s - e))
  else quantMagnitude (stepSize tbl n) (s - e)

/-- `ENCODE(s, e, n) = (c, DECODE(c, n, e))` with `c = QUANT(s, e, n)` (R109). -/
def encodeSample (tbl : StepTable) (s e : Int) (n : StepIndex) : Code × (Int × Int) :=
  (quantize tbl s e n, decodeSample tbl (quantize tbl s e n) n e)

/-- The codec state and `CODE` after the code `c` is applied: `EST`, `IDX <- DECODE(c, IDX, EST)` and `CODE <- c`, the
update ENC, DEC and each pass of DECB make (R111, R112, R113). -/
def applyCode (c : Code) (s : State) : State :=
  let r := decodeSample s.stepTable c s.idx (sext12 s.est)
  setCode c (setIdx r.2 (setEst r.1 s))

/-- Decode one code and emit the new estimate (R112; one pass of R113). -/
def decodeOne (c : Code) (s : State) : State :=
  emitSample (decodeSample s.stepTable c s.idx (sext12 s.est)).1 (applyCode c s)

/-- The code ENC produces for the sample pattern `x` (R111). -/
def encodedCode (x : Sample) (s : State) : Code := quantize s.stepTable (sext12 x) (sext12 s.est) s.idx

/-- ENC: quantize the sample, update the codec state as a decode of the code would, and pack the code (R111). -/
def execEnc (x : Sample) (s : State) : Host.Outcome State Fault Refusal :=
  .next (pack (encodedCode x s) (applyCode (encodedCode x s) s))

/-- DEC: decode one code; the packer is not touched (R112). -/
def execDec (c : Code) (s : State) : Host.Outcome State Fault Refusal := .next (decodeOne c s)

/-- DECB: decode the low nibble, then the high nibble from the state the first left (R113, R47). -/
def execDecb (b : Byte) (s : State) : Host.Outcome State Fault Refusal :=
  .next (decodeOne (highNibble b) (decodeOne (lowNibble b) s))

/-- LDEST: load the estimate (R114). -/
def execLdest (x : Sample) (s : State) : Host.Outcome State Fault Refusal := .next (setEst (sext12 x) s)

/-- LDIDX: load the step index; an operand above 48 raises OPERAND_RANGE with the command's own word (R115). The decoder
has rejected such a word before (R160), so only a command that no word decodes to takes that branch (log 7). -/
def execLdidx (k : BitVec 6) (s : State) : Host.Outcome State Fault Refusal :=
  if Config.idxMax < k.toNat then .next (raiseError .operandRange (encode (.ldidx k)) s)
  else .next (setIdx (k.toNat : Int) s)

end Sys2Proof.Machine
end

