-- ==== Sys2Proof/Machine/Control.lean ====
section
/-! DEFINITION. The control commands of 42_control.md: NOP (R161) and INIT (R162). -/

namespace Sys2Proof.Machine

/-- NOP: nothing changes (R161). -/
def execNop (s : State) : Host.Outcome State Fault Refusal := .next s

/-- INIT: the codec and packer registers and `CODE` become 0; a held nibble is discarded, nothing is emitted, and the error
registers stay (R162, R163, R164). -/
def execInit (s : State) : Host.Outcome State Fault Refusal := .next (clearConversion s)

end Sys2Proof.Machine
end

