-- ==== Sys2Proof/Machine/Dispatch.lean ====
section
/-! DEFINITION. The dispatch of 42_control.md R160: one arm per command. -/

namespace Sys2Proof.Machine

def exec (i : Instr) (s : State) : Host.Outcome State Fault Refusal :=
  match i with
  | .nop => Sys2Proof.Machine.execNop s
  | .init => Sys2Proof.Machine.execInit s
  | .enc sample => Sys2Proof.Machine.execEnc sample s
  | .dec code => Sys2Proof.Machine.execDec code s
  | .decb byte => Sys2Proof.Machine.execDecb byte s
  | .flush => Sys2Proof.Machine.execFlush s
  | .ldest estimate => Sys2Proof.Machine.execLdest estimate s
  | .ldidx index => Sys2Proof.Machine.execLdidx index s

end Sys2Proof.Machine
end

