-- ==== Sys2Proof/Machine/Command.lean ====
section
/-! DEFINITION. One command step: STEP(cmd) of 42_control.md R160. -/

namespace Sys2Proof.Machine

/-- STEP(cmd): a word that fails a check raises its error and has no other effect; a word that passes runs its command to
completion (R160, R17). -/
def commandStep (w : CmdWord) (s : State) : Host.Outcome State Fault Refusal :=
  match decode w with
  | .command i => exec i s
  | .rejected e => .next (raiseError e w s)

/-- What one input does: a command step, or hardware reset (R33). -/
def inputStep (x : HostInput) (s : State) : Host.Outcome State Fault Refusal :=
  match x with
  | .command w => commandStep w s
  | .reset => .next (hardwareReset s)

end Sys2Proof.Machine
end

