-- ==== Sys2Proof/Machine/Step.lean ====
section
/-! DEFINITION. The machine's step: take the next input the host has issued and let it have its effect (20_memory.md R52). -/

namespace Sys2Proof.Machine

/-- One step. With nothing issued the engine holds its state, since it starts nothing on its own (R7, R213; log 5). -/
def step (s : State) : Host.Outcome State Fault Refusal :=
  match takeInput s with
  | none => .next s
  | some (x, t) => inputStep x t

/-- `s` with the opcode-table word `w` as the next input the engine takes; nothing else changes (log 5). -/
def State.withFetchWord (s : State) (nbits w : Nat) : State := issueFirst (tableWord nbits w) s

end Sys2Proof.Machine
end

