-- ==== Sys2Proof/Machine/Assembler.lean ====
section
/-! DEFINITION. The command assembly of 30_encoding.md: one command per line (R67) and the two pseudo-instructions (R68). It is a
notation for the host's words and no part of the engine: nothing of the step uses it. -/

namespace Sys2Proof.Machine

/-- A written operand. -/
inductive Literal where
  /-- A decimal integer. -/
  | decimal (value : Int)
  /-- A hexadecimal literal, 0x and digits. -/
  | hex (value : Nat)
  deriving DecidableEq, Repr

/-- One line of assembly. -/
inductive AsmLine where
  /-- An empty line or a comment alone. -/
  | blank
  /-- `MNEMONIC [operand]` (R67). -/
  | command (m : Mnemonic) (operand : Option Literal)
  /-- `.word 0xHHHH`, a raw command word (R67). -/
  | word (value : Nat)
  /-- `LDSTATE e, n` (R68). -/
  | ldstate (e n : Literal)
  /-- `ENDSTREAM` (R68). -/
  | endstream
  deriving DecidableEq, Repr

/-- The 12-bit pattern of an ENC or LDEST operand: a decimal in [-2048, 2047] as its two's complement, a hexadecimal up to
0xFFF as the pattern itself (R67). -/
def sampleLiteral : Literal → Option Sample
  | .decimal v => if -2048 ≤ v ∧ v ≤ 2047 then some (BitVec.ofInt 12 v) else none
  | .hex v => if v ≤ 0xFFF then some (BitVec.ofNat 12 v) else none

/-- A code or byte operand, decimal or hexadecimal, at most `bound` (R67). -/
def naturalLiteral (bound : Nat) : Literal → Option Nat
  | .decimal v => if 0 ≤ v ∧ v ≤ (bound : Int) then some v.toNat else none
  | .hex v => if v ≤ bound then some v else none

/-- An LDIDX operand: a decimal index in [0, 48] (R67 names no hexadecimal form for it; log 14). -/
def indexLiteral : Literal → Option (BitVec 6)
  | .decimal v => if 0 ≤ v ∧ v ≤ 48 then some (BitVec.ofNat 6 v.toNat) else none
  | .hex _ => none

/-- The command of a mnemonic and its written operand; none is an assembly error (R67). -/
def assembleCommand (m : Mnemonic) (operand : Option Literal) : Option Instr :=
  match m, operand with
  | .nop, none => some .nop
  | .init, none => some .init
  | .flush, none => some .flush
  | .enc, some l => (sampleLiteral l).map .enc
  | .ldest, some l => (sampleLiteral l).map .ldest
  | .dec, some l => (naturalLiteral 15 l).map fun v => .dec (BitVec.ofNat 4 v)
  | .decb, some l => (naturalLiteral 255 l).map fun v => .decb (BitVec.ofNat 8 v)
  | .ldidx, some l => (indexLiteral l).map .ldidx
  | .nop, some _ => none
  | .init, some _ => none
  | .flush, some _ => none
  | .enc, none => none
  | .ldest, none => none
  | .dec, none => none
  | .decb, none => none
  | .ldidx, none => none

/-- The command words of one line; none is an assembly error (R67, R68). -/
def assembleLine : AsmLine → Option (List CmdWord)
  | .blank => some []
  | .command m operand => (assembleCommand m operand).map fun i => [encode i]
  | .word v => if v ≤ 0xFFFF then some [BitVec.ofNat 16 v] else none
  | .ldstate e n =>
    match assembleCommand .ldest (some e), assembleCommand .ldidx (some n) with
    | some i, some j => some [encode i, encode j]
    | _, _ => none
  | .endstream => (assembleCommand .flush none).map fun i => [encode i]

/-- A mnemonic's letters in capitals. -/
def Mnemonic.letters : Mnemonic → List Char
  | .nop => ['N', 'O', 'P']
  | .init => ['I', 'N', 'I', 'T']
  | .enc => ['E', 'N', 'C']
  | .dec => ['D', 'E', 'C']
  | .decb => ['D', 'E', 'C', 'B']
  | .flush => ['F', 'L', 'U', 'S', 'H']
  | .ldest => ['L', 'D', 'E', 'S', 'T']
  | .ldidx => ['L', 'D', 'I', 'D', 'X']

/-- The mnemonic written by these letters, in capitals. -/
def mnemonicOf (t : List Char) : Option Mnemonic :=
  [Mnemonic.nop, .init, .enc, .dec, .decb, .flush, .ldest, .ldidx].find? fun m => Mnemonic.letters m == t

/-- A letter of either case as its capital, any other character as itself. R67 makes mnemonics case-insensitive; that the
letters of `.word`, of the pseudo-instructions and of literals are read in either case too is DESIGN CHOICE (log 14). -/
def capital (c : Char) : Char :=
  if 'a'.toNat ≤ c.toNat ∧ c.toNat ≤ 'z'.toNat then Char.ofNat (c.toNat - 32) else c

/-- The value of a digit in the given base, letters in capitals. -/
def digitValue (base : Nat) (c : Char) : Option Nat :=
  let v := if '0'.toNat ≤ c.toNat ∧ c.toNat ≤ '9'.toNat then c.toNat - '0'.toNat
    else if 'A'.toNat ≤ c.toNat ∧ c.toNat ≤ 'F'.toNat then c.toNat - 'A'.toNat + 10
    else base
  if v < base then some v else none

/-- The number written by digits of the given base, `acc` being the value of those before them. -/
def digitsValue (base acc : Nat) : List Char → Option Nat
  | [] => some acc
  | c :: rest => (digitValue base c).bind fun v => digitsValue base (base * acc + v) rest

/-- A numeral: one digit or more. -/
def numeral (base : Nat) : List Char → Option Nat
  | [] => none
  | c :: rest => digitsValue base 0 (c :: rest)

/-- An operand as written, in capitals: 0x and hexadecimal digits, or a decimal with an optional minus sign (R67; log 14). -/
def literalOf : List Char → Option Literal
  | '0' :: 'X' :: rest => (numeral 16 rest).map .hex
  | '-' :: rest => (numeral 10 rest).map fun v => .decimal (-(v : Int))
  | t => (numeral 10 t).map fun v => .decimal (v : Int)

/-- The tokens of a line: runs of characters between blanks, a comma a token of its own. `cur` is the run being read,
last character first. -/
def tokens (cur : List Char) : List Char → List (List Char)
  | [] => if cur.isEmpty then [] else [cur.reverse]
  | c :: rest =>
    if c == ' ' || c == '\t' || c == '\r' then
      (if cur.isEmpty then [] else [cur.reverse]) ++ tokens [] rest
    else if c == ',' then
      (if cur.isEmpty then [] else [cur.reverse]) ++ [','] :: tokens [] rest
    else tokens (capital c :: cur) rest

/-- The line that these tokens, in capitals, write (R67, R68); none is a line of no such form. DESIGN CHOICE, log 14: as every
token comes in capitals, the directive `.word` and the names LDSTATE and ENDSTREAM are accepted in either case, where R67
says so of mnemonics and is silent on the directive; `.word` takes a hexadecimal literal only. -/
def lineOfTokens : List (List Char) → Option AsmLine
  | [] => some .blank
  | [t] =>
    if t == ['E', 'N', 'D', 'S', 'T', 'R', 'E', 'A', 'M'] then some .endstream
    else (mnemonicOf t).map fun m => .command m none
  | [t, x] =>
    if t == ['.', 'W', 'O', 'R', 'D'] then
      match literalOf x with
      | some (.hex v) => some (.word v)
      | _ => none
    else
      match mnemonicOf t, literalOf x with
      | some m, some l => some (.command m (some l))
      | _, _ => none
  | [t, x, [','], y] =>
    if t == ['L', 'D', 'S', 'T', 'A', 'T', 'E'] then
      match literalOf x, literalOf y with
      | some e, some n => some (.ldstate e n)
      | _, _ => none
    else none
  | _ => none

/-- One line of text: what stands before a semicolon, as tokens (R67). -/
def parseLine (text : List Char) : Option AsmLine := lineOfTokens (tokens [] (text.takeWhile fun c => !(c == ';')))

/-- The command words of one line of text. -/
def assembleText (text : List Char) : Option (List CmdWord) := (parseLine text).bind assembleLine

/-- The command words of a list of lines, in order; none if any line is an assembly error. -/
def assembleProgram : List (List Char) → Option (List CmdWord)
  | [] => some []
  | l :: rest =>
    match assembleText l, assembleProgram rest with
    | some ws, some more => some (ws ++ more)
    | _, _ => none

end Sys2Proof.Machine
end

