-- ==== Sys2Proof/Machine/Flags.lean ====
section
/-! DEFINITION. The host's view of the state: the STATUS and ERRCMD words (10_state.md R30, R31) and the two output channels (R37).
The engine has no condition codes; `PK_HALF` and `ERR` are its only flags (R26). Reading a view has no side effect
(R32): each is a function of the state. -/

namespace Sys2Proof.Machine

/-- The 4-bit value of `CAUSE` (R28, R201). -/
def Cause.value : Cause → BitVec 4
  | .none => 0#4
  | .illegalOpcode => 1#4
  | .reservedBits => 2#4
  | .operandRange => 3#4

/-- The STATUS word by its table of fields, from `CAUSE` in bits 31:28 down to `EST` in bits 11:0 (R30). -/
def statusWord (s : State) : BitVec 32 :=
  s.cause.value ++ BitVec.ofBool s.err ++ BitVec.ofBool s.pkHalf ++ s.pkHold ++ s.code
    ++ BitVec.ofNat 6 s.idx.val ++ s.est

/-- The ERRCMD word (R31). -/
def errCmdWord (s : State) : BitVec 16 := s.errCmd

/-- The bytes among the outputs, in order. -/
def bytesOf : List Output → List Byte
  | [] => []
  | .byte b :: rest => b :: bytesOf rest
  | .sample _ :: rest => bytesOf rest

/-- The samples among the outputs, in order. -/
def samplesOf : List Output → List Sample
  | [] => []
  | .byte _ :: rest => samplesOf rest
  | .sample v :: rest => v :: samplesOf rest

/-- BYTE_OUT as the host observes it (R37). -/
def byteOut (s : State) : List Byte := bytesOf s.out

/-- PCM_OUT as the host observes it (R37). -/
def pcmOut (s : State) : List Sample := samplesOf s.out

end Sys2Proof.Machine
end

