-- ==== Sys2Proof/Machine/Stream.lean ====
section
/-! DEFINITION. Sequences of commands, and the source's own list-based descriptions that the laws of 40_codec.md and 41_packer.md
compare them with: the list packer (R144), its unpacking (R148), the encode loop (R109) and the decode loop (R103). -/

namespace Sys2Proof.Machine

/-- Commands executed one after another, each on the state the one before it left (R52). -/
def execAll : List Instr → State → Host.Outcome State Fault Refusal
  | [], s => .next s
  | i :: rest, s =>
    match exec i s with
    | .next t => execAll rest t
    | .fault r => .fault r
    | .refused r => .refused r

/-- One pass of the source's list packer: code `c` of index `i` is appended as a byte when `i` is even, and put in the high
nibble of the last byte when `i` is odd (R144). -/
def sourcePackStep (bytes : List Byte) (i : Nat) (c : Code) : List Byte :=
  if i % 2 = 0 then bytes ++ [c.setWidth 8]
  else bytes.dropLast ++ [(bytes.getLast?.getD 0#8) ||| (c.setWidth 8 <<< 4)]

/-- The source's list packer from index `i` on (R144). -/
def sourcePackFrom (i : Nat) (bytes : List Byte) : List Code → List Byte
  | [] => bytes
  | c :: rest => sourcePackFrom (i + 1) (sourcePackStep bytes i c) rest

/-- The source's list L for a sequence of codes (R144). -/
def sourcePack (codes : List Code) : List Byte := sourcePackFrom 0 [] codes

/-- Each byte's low nibble and then its high nibble (R47, R148). -/
def unpack : List Byte → List Code
  | [] => []
  | b :: rest => lowNibble b :: highNibble b :: unpack rest

/-- The codes a sequence of samples gives, from estimate `e` and step index `n` (R109, R230). -/
def encodeCodes (tbl : StepTable) : List Sample → StepIndex → Int → List Code
  | [], _, _ => []
  | x :: rest, n, e =>
    let r := encodeSample tbl (sext12 x) e n
    r.1 :: encodeCodes tbl rest (narrowIdx r.2.2) r.2.1

/-- The estimates a sequence of codes gives, from estimate `e` and step index `n` (R103, R112). -/
def decodeEstimates (tbl : StepTable) : List Code → StepIndex → Int → List Int
  | [], _, _ => []
  | c :: rest, n, e =>
    let r := decodeSample tbl c n e
    r.1 :: decodeEstimates tbl rest (narrowIdx r.2) r.1

/-- How many codes a command packs: ENC packs one, no other command packs any (R140). -/
def packsCode : Instr → Bool
  | .nop => false
  | .init => false
  | .enc _ => true
  | .dec _ => false
  | .decb _ => false
  | .flush => false
  | .ldest _ => false
  | .ldidx _ => false

/-- Whether a command empties the packer: INIT and FLUSH do (R26). -/
def emptiesPacker : Instr → Bool
  | .nop => false
  | .init => true
  | .enc _ => false
  | .dec _ => false
  | .decb _ => false
  | .flush => true
  | .ldest _ => false
  | .ldidx _ => false

/-- How many codes have been packed since the last INIT or FLUSH, when `n` had been before these commands (R26). -/
def packedSince (n : Nat) : List Instr → Nat
  | [] => n
  | i :: rest => packedSince (if emptiesPacker i then 0 else if packsCode i then n + 1 else n) rest

end Sys2Proof.Machine
end

