-- ==== Sys2Proof/Machine/System.lean ====
section
/-! DEFINITION. Several engines side by side (60_exceptions.md R211, 10_state.md R38): `ENGINE_COUNT` is the length of the list. -/

namespace Sys2Proof.Machine

/-- Independent engine instances, each with its own registers, port and channels (R38, R211; log 13). -/
abbrev System := List State

/-- One step of the engine number `k`; a number that no engine has changes nothing. -/
def systemStep (k : Nat) (sys : System) : Host.Outcome System Fault Refusal :=
  match sys[k]? with
  | none => .next sys
  | some s =>
    match step s with
    | .next t => .next (sys.set k t)
    | .fault r => .fault r
    | .refused r => .refused r

end Sys2Proof.Machine
end

