-- ==== Sys2Proof/Safety.lean ====
section
/-! DEFINITION. What claims say of a state: the invariants the spec gives its registers and tables, and what a safe state is. -/

namespace Sys2Proof.Machine

/-- The step table is one the parameter `STEP_TABLE` may take: 49 positive integers with entry 0 equal to 16 (R9). -/
def tableInv (tbl : StepTable) : Prop := (∀ n : StepIndex, 0 < stepSize tbl n) ∧ stepSize tbl 0 = 16

/-- `CAUSE` is 0 exactly when `ERR = 0`, and `ERR_CMD` is 0x0000 while `ERR = 0` (R28, R29). -/
def errInv (s : State) : Prop := (s.cause = .none ↔ s.err = false) ∧ (s.err = false → s.errCmd = 0x0000#16)

/-- While `PK_HALF = 0`, `PK_HOLD` holds 0 (R25). -/
def packInv (s : State) : Prop := s.pkHalf = false → s.pkHold = 0#4

/-- The invariant of the machine: the packer, the error registers and the ROM are as the spec says they always are. That
`IDX` is in [0, 48] (R23) and `CAUSE` in 0 to 3 (R28) the types say. -/
def StateInv (s : State) : Prop := packInv s ∧ errInv s ∧ tableInv s.stepTable

/-- A safe state: no command has been rejected since reset (R27, R232; 92_eei_decisions.md D8). -/
def Safe (s : State) : Prop := s.err = false

end Sys2Proof.Machine
end

