-- ==== Sys2Proof/Certificates/Slice0/Obligations.lean ====
section
/-! DEFINITION. What is to be proved of the machine. Each docstring names the rules of spec/ its statement formalises. -/

open Sys2Proof Sys2Proof.Machine

/-! ## Encoding (30_encoding.md) -/

/-- R60, R61, R62: the word of every command with an encoding decodes to that command, whatever its operand. -/
def Obligations.DecodeInvertsEncode : Prop :=
  ∀ i : Instr, i.wellFormed = true → decode (encode i) = .command i

/-- R60, R61, R62: a word the decoder accepts is the one word of the command it gives, and that command is well formed. -/
def Obligations.EncodeInvertsDecode : Prop :=
  ∀ (w : CmdWord) (i : Instr), decode w = .command i → i.wellFormed = true ∧ encode i = w

/-- R61: a word is a given command exactly when its row's match and mask say so and, for LDIDX, its operand is at most 48; an
opcode of 8 or more is no command. -/
def Obligations.OpcodeMapByMatchAndMask : Prop :=
  (∀ row ∈ ([(.nop, 0x0000#16, 0xFFFF#16), (.init, 0x1000#16, 0xFFFF#16), (.enc, 0x2000#16, 0xF000#16),
        (.dec, 0x3000#16, 0xFFF0#16), (.decb, 0x4000#16, 0xFF00#16), (.flush, 0x5000#16, 0xFFFF#16),
        (.ldest, 0x6000#16, 0xF000#16), (.ldidx, 0x7000#16, 0xFFC0#16)] : List (Mnemonic × CmdWord × CmdWord)),
      ∀ w : CmdWord, (∃ i, decode w = .command i ∧ i.mnemonic = row.1) ↔
        (w &&& row.2.2 = row.2.1 ∧ (row.1 = .ldidx → (w.extractLsb' 0 6).toNat ≤ 48))) ∧
  (∀ w : CmdWord, 8 ≤ (w.extractLsb' 12 4).toNat → decode w = .rejected .illegalOpcode)

/-- R62: each format takes its operand from its own bits, unscaled; the rest of the operand field is zero in an accepted word;
every 12-bit pattern is a legal S12 operand, read as the two's-complement integer of its bits. -/
def Obligations.OperandsFromTheirBits : Prop :=
  (∀ w : CmdWord, ∀ i, decode w = .command i →
    match i with
    | .nop => w.extractLsb' 0 12 = 0#12
    | .init => w.extractLsb' 0 12 = 0#12
    | .flush => w.extractLsb' 0 12 = 0#12
    | .enc x => x = w.extractLsb' 0 12
    | .ldest x => x = w.extractLsb' 0 12
    | .dec c => c = w.extractLsb' 0 4 ∧ w.extractLsb' 4 8 = 0#8
    | .decb b => b = w.extractLsb' 0 8 ∧ w.extractLsb' 8 4 = 0#4 ∧
        lowNibble b = w.extractLsb' 0 4 ∧ highNibble b = w.extractLsb' 4 4
    | .ldidx k => k = w.extractLsb' 0 6 ∧ w.extractLsb' 6 6 = 0#6 ∧ k.toNat ≤ 48) ∧
  (∀ x : Sample, decode (0x2#4 ++ x) = .command (.enc x) ∧ decode (0x6#4 ++ x) = .command (.ldest x)) ∧
  (∀ x : Sample, sext12 x = if 2048 ≤ x.toNat then (x.toNat : Int) - 4096 else (x.toNat : Int))

/-- R63: a word with an opcode of 8 or more is rejected with cause 1 and has no other effect. -/
def Obligations.ReservedOpcodeRejected : Prop :=
  ∀ (s : State) (w : CmdWord) (rest : List HostInput), s.port = .command w :: rest →
    8 ≤ (w.extractLsb' 12 4).toNat →
    step s = .next { s with
      port := rest, err := true,
      cause := if s.err then s.cause else .illegalOpcode,
      errCmd := if s.err then s.errCmd else w }

/-- R64: a defined opcode with a nonzero reserved bit is rejected with cause 2 and has no other effect; 0x0001 is no NOP.
ENC and LDEST have no reserved bits, so the list holds the other six opcodes with their reserved masks. -/
def Obligations.ReservedBitsRejected : Prop :=
  (∀ row ∈ ([(0x0#4, 0xFFF#12), (0x1#4, 0xFFF#12), (0x3#4, 0xFF0#12), (0x4#4, 0xF00#12), (0x5#4, 0xFFF#12),
        (0x7#4, 0xFC0#12)] : List (BitVec 4 × BitVec 12)),
    ∀ (s : State) (x : BitVec 12) (rest : List HostInput), s.port = .command (row.1 ++ x) :: rest →
      x &&& row.2 ≠ 0#12 →
      step s = .next { s with
        port := rest, err := true,
        cause := if s.err then s.cause else .reservedBits,
        errCmd := if s.err then s.errCmd else row.1 ++ x }) ∧
  decode 0x0001#16 = .rejected .reservedBits

/-- R65: an LDIDX with zero reserved bits and an operand of 49 to 63 is rejected with cause 3 and has no other effect; no other
command has a range check. -/
def Obligations.IndexOperandRangeRejected : Prop :=
  (∀ (s : State) (k : BitVec 6) (rest : List HostInput), s.port = .command (0x1C0#10 ++ k) :: rest → 48 < k.toNat →
    step s = .next { s with
      port := rest, err := true,
      cause := if s.err then s.cause else .operandRange,
      errCmd := if s.err then s.errCmd else 0x1C0#10 ++ k }) ∧
  (∀ w : CmdWord, decode w = .rejected .operandRange → w.extractLsb' 12 4 = 0x7#4) ∧
  (∀ x : Sample, decode (0x2#4 ++ x) = .command (.enc x) ∧ decode (0x6#4 ++ x) = .command (.ldest x)) ∧
  (∀ c : Code, decode (0x300#12 ++ c) = .command (.dec c)) ∧
  (∀ b : Byte, decode (0x40#8 ++ b) = .command (.decb b))

/-- R66: how many of the 65536 words are each command, and how many each cause rejects. -/
def Obligations.WordsPartitioned : Prop :=
  let words := (List.range 65536).map (BitVec.ofNat 16)
  let commands (m : Mnemonic) : Nat := words.countP fun w =>
    match decode w with
    | .command i => decide (i.mnemonic = m)
    | .rejected _ => false
  let rejects (e : CommandError) : Nat := words.countP fun w => decide (decode w = .rejected e)
  commands .nop = 1 ∧ commands .init = 1 ∧ commands .enc = 4096 ∧ commands .dec = 16 ∧ commands .decb = 256 ∧
  commands .flush = 1 ∧ commands .ldest = 4096 ∧ commands .ldidx = 49 ∧
  commands .nop + commands .init + commands .enc + commands .dec + commands .decb + commands .flush +
    commands .ldest + commands .ldidx = 8516 ∧
  rejects .illegalOpcode = 32768 ∧ rejects .reservedBits = 24237 ∧ rejects .operandRange = 15

/-- R61, 95_test_vectors.md: words of every command read as the spec reads them. -/
def Obligations.ExampleWordsDecode : Prop :=
  decode 0x0000#16 = .command .nop ∧ decode 0x1000#16 = .command .init ∧ decode 0x2FFC#16 = .command (.enc (-4)) ∧
  decode 0x300B#16 = .command (.dec 11) ∧ decode 0x4077#16 = .command (.decb 0x77) ∧ decode 0x5000#16 = .command .flush ∧
  decode 0x6800#16 = .command (.ldest (-2048)) ∧ decode 0x7030#16 = .command (.ldidx 48)

/-- R160: one command step is the three checks in cause order, each with no effect but the error it raises, and then the
operation the opcode selects. -/
def Obligations.CommandStepChecksThenRuns : Prop :=
  ∀ (w : CmdWord) (s : State),
    let op := w.extractLsb' 12 4
    let opnd := w.extractLsb' 0 12
    let mask : BitVec 12 :=
      [0xFFF#12, 0xFFF#12, 0x000#12, 0xFF0#12, 0xF00#12, 0xFFF#12, 0x000#12, 0xFC0#12].getD op.toNat 0#12
    let raised (c : Cause) : State :=
      { s with
        err := true
        cause := if s.err then s.cause else c
        errCmd := if s.err then s.errCmd else w }
    if 8 ≤ op.toNat then commandStep w s = .next (raised .illegalOpcode)
    else if opnd &&& mask ≠ 0#12 then commandStep w s = .next (raised .reservedBits)
    else if op = 0x7#4 ∧ 48 < (w.extractLsb' 0 6).toNat then commandStep w s = .next (raised .operandRange)
    else (op = 0x0#4 → commandStep w s = exec .nop s) ∧ (op = 0x1#4 → commandStep w s = exec .init s) ∧
      (op = 0x2#4 → commandStep w s = exec (.enc (w.extractLsb' 0 12)) s) ∧
      (op = 0x3#4 → commandStep w s = exec (.dec (w.extractLsb' 0 4)) s) ∧
      (op = 0x4#4 → commandStep w s = exec (.decb (w.extractLsb' 0 8)) s) ∧
      (op = 0x5#4 → commandStep w s = exec .flush s) ∧
      (op = 0x6#4 → commandStep w s = exec (.ldest (w.extractLsb' 0 12)) s) ∧
      (op = 0x7#4 → commandStep w s = exec (.ldidx (w.extractLsb' 0 6)) s)

/-- R201, R202: the lowest-numbered cause whose condition a word meets is the one reported, and a word that meets none is a
command; 0x7FFF is reported as cause 2; ENC and LDEST words are never rejected. -/
def Obligations.LowestCauseReported : Prop :=
  (∀ w : CmdWord,
    let c1 := 8 ≤ (opcodeOf w).toNat
    let c2 := opcodeOf w ∈ [0x0#4, 0x1#4, 0x5#4] ∧ w.extractLsb' 0 12 ≠ 0#12 ∨
      opcodeOf w = 0x3#4 ∧ w.extractLsb' 4 8 ≠ 0#8 ∨ opcodeOf w = 0x4#4 ∧ w.extractLsb' 8 4 ≠ 0#4 ∨
      opcodeOf w = 0x7#4 ∧ w.extractLsb' 6 6 ≠ 0#6
    let c3 := opcodeOf w = 0x7#4 ∧ 48 < (w.extractLsb' 0 6).toNat
    (decode w = .rejected .illegalOpcode ↔ c1) ∧ (decode w = .rejected .reservedBits ↔ ¬c1 ∧ c2) ∧
    (decode w = .rejected .operandRange ↔ ¬c1 ∧ ¬c2 ∧ c3) ∧ ((∃ i, decode w = .command i) ↔ ¬c1 ∧ ¬c2 ∧ ¬c3)) ∧
  decode 0x7FFF#16 = .rejected .reservedBits ∧
  (∀ (w : CmdWord) (e : CommandError), decode w = .rejected e → opcodeOf w ≠ 0x2#4 ∧ opcodeOf w ≠ 0x6#4)

/-! ## The step, reset and the error registers (42_control.md, 60_exceptions.md, 70_reset_and_hazards.md) -/

/-- R52, R160: when the next input is a word that decodes to a command, the step takes that input and executes the command. -/
def Obligations.StepRunsDecodedCommand : Prop :=
  ∀ (s : State) (w : CmdWord) (i : Instr) (rest : List HostInput), s.port = .command w :: rest →
    decode w = .command i → step s = exec i { s with port := rest }

/-- The model's choice of log 5, after R7 and R213: with nothing issued a step leaves the state as it is. -/
def Obligations.StepHoldsStateWhenNothingIssued : Prop :=
  ∀ s : State, s.port = [] → step s = .next s

/-- R220, and the model's choice of log 4 that a reset comes in issue order: a step that takes a hardware reset sets every
register to its reset value, emits nothing, and keeps the table and the inputs issued after it. -/
def Obligations.StepAppliesHardwareReset : Prop :=
  ∀ (s : State) (rest : List HostInput), s.port = .reset :: rest →
    step s = .next { s with
      est := 0#12, idx := 0, code := 0#4, pkHold := 0#4, pkHalf := false, err := false, cause := .none,
      errCmd := 0x0000#16, port := rest }

/-- R220: hardware reset, from any state. -/
def Obligations.HardwareResetSetsRegisters : Prop :=
  ∀ s : State, sext12 (hardwareReset s).est = 0 ∧
    hardwareReset s = { s with
      est := 0#12, idx := 0, code := 0#4, pkHold := 0#4, pkHalf := false, err := false, cause := .none,
      errCmd := 0x0000#16 }

/-- R34: every register's reset value, and the two words the host reads. -/
def Obligations.ResetRegistersAreZero : Prop :=
  State.reset.est = 0#12 ∧ State.reset.idx = 0 ∧ State.reset.code = 0#4 ∧ State.reset.pkHold = 0#4 ∧
  State.reset.pkHalf = false ∧ State.reset.err = false ∧ State.reset.cause = .none ∧ State.reset.errCmd = 0x0000#16 ∧
  statusWord State.reset = 0x00000000#32 ∧ errCmdWord State.reset = 0x0000#16

/-- R221: reset and INIT leave the same codec and packer registers and differ in the error registers alone. -/
def Obligations.ResetDiffersFromInitInErrorsOnly : Prop :=
  ∀ s : State, (hardwareReset s).err = false ∧ (hardwareReset s).cause = .none ∧ (hardwareReset s).errCmd = 0x0000#16 ∧
    exec .init s = .next { hardwareReset s with err := s.err, cause := s.cause, errCmd := s.errCmd }

/-- R25, R28, R29, R9: the state after reset meets the invariant. -/
def Obligations.ResetMeetsInvariant : Prop := StateInv State.reset

/-- R25, R28, R29, R42: every step keeps the invariant of the packer, the error registers and the step table. -/
def Obligations.StepKeepsInvariant : Prop :=
  ∀ s t : State, StateInv s → step s = .next t → StateInv t

/-- R203: a rejected word writes the three error registers when no error stands, changes nothing when one does, and touches
nothing else. -/
def Obligations.ErrorIsPreciseAndFirstKept : Prop :=
  ∀ (s : State) (w : CmdWord) (e : CommandError) (rest : List HostInput), s.port = .command w :: rest →
    decode w = .rejected e →
    (s.err = false → step s = .next { s with port := rest, err := true, cause := causeOf e, errCmd := w }) ∧
    (s.err = true → step s = .next { s with port := rest })

/-- R204: after a rejected word the engine takes the next input as usual. -/
def Obligations.EngineGoesOnAfterError : Prop :=
  ∀ (s : State) (w : CmdWord) (e : CommandError) (x : HostInput) (rest : List HostInput),
    s.port = .command w :: x :: rest → decode w = .rejected e →
    ∃ t, step s = .next t ∧ t.port = x :: rest ∧ t = raiseError e w { s with port := x :: rest } ∧
      step t = inputStep x { t with port := rest }

/-- R200, R204, R231: every step of every state goes on to a next state. -/
def Obligations.EveryStepGoesOn : Prop := ∀ s : State, ∃ t, step s = .next t

/-- R205, R27, R164: once set, `ERR`, `CAUSE` and `ERR_CMD` keep their values over every step but a hardware reset, which clears
them. -/
def Obligations.OnlyResetClearsErrors : Prop :=
  (∀ s t : State, s.err = true → s.port.head? ≠ some .reset → step s = .next t →
    t.err = true ∧ t.cause = s.cause ∧ t.errCmd = s.errCmd) ∧
  (∀ (s : State) (rest : List HostInput), s.port = .reset :: rest →
    ∃ t, step s = .next t ∧ t.err = false ∧ t.cause = .none ∧ t.errCmd = 0x0000#16)

/-- R27, R201: an error stands after a step from a safe state only when the step took a word the decoder rejects, and then that
word and its cause are the ones recorded; no accepted command and no reset raises one. -/
def Obligations.ErrorsArePreciselyRejectedWords : Prop :=
  ∀ s t : State, Safe s → step s = .next t →
    (¬ Safe t ↔ ∃ w e rest, s.port = .command w :: rest ∧ decode w = .rejected e) ∧
    (∀ w e rest, s.port = .command w :: rest → decode w = .rejected e → t.cause = causeOf e ∧ t.errCmd = w)

/-- R203, R204: what stands in the error registers changes nothing else that a step does. -/
def Obligations.ErrorRegistersInfluenceNothingElse : Prop :=
  ∀ (s : State) (b : Bool) (c : Cause) (w : CmdWord), ∃ t u, step s = .next t ∧
    step { s with err := b, cause := c, errCmd := w } = .next u ∧
    { u with err := t.err, cause := t.cause, errCmd := t.errCmd } = t

/-- R42: no command and no reset changes a table. -/
def Obligations.StepNeverWritesStepTable : Prop :=
  ∀ s t : State, step s = .next t → t.stepTable = s.stepTable

/-- R37, R52, with the port list of log 3: a step takes the first input and no other, and only appends to the outputs, every
channel's included. -/
def Obligations.StepTakesOneInputAndAppends : Prop :=
  ∀ s t : State, step s = .next t → t.port = s.port.tail ∧
    ∃ more : List Output, t.out = s.out ++ more ∧ more.length ≤ 2 ∧
      byteOut t = byteOut s ++ bytesOf more ∧ pcmOut t = pcmOut s ++ samplesOf more

/-- R52: the words of any sequence of commands, issued on the port, are executed in that order, each on the state the one before
it left. -/
def Obligations.CommandsRunInIssueOrder : Prop :=
  ∀ (is : List Instr) (s : State) (rest : List HostInput), (∀ i ∈ is, i.wellFormed = true) →
    s.port = is.map (fun i => .command (encode i)) ++ rest →
    Host.Core.run Sys2Proof.core is.length s = execAll is { s with port := rest } ∧
    ∃ t, execAll is { s with port := rest } = .next t ∧ t.port = rest

/-! ## Each command (40_codec.md, 41_packer.md, 42_control.md) -/

/-- R161: NOP changes nothing; its one word is 0x0000, and 0x0001 to 0x0FFF are rejected with cause 2. -/
def Obligations.NopChangesNothing : Prop :=
  (∀ s : State, exec .nop s = .next s) ∧ encode .nop = 0x0000#16 ∧ decode 0x0000#16 = .command .nop ∧
  (∀ x : BitVec 12, x ≠ 0#12 → decode (0x0#4 ++ x) = .rejected .reservedBits)

/-- R162, R163, R164: INIT clears the codec and packer registers and `CODE`, emits nothing, discards a held nibble and keeps the
error registers; STATUS bits 26:0 are then 0 and bits 31:27 as before. -/
def Obligations.InitClearsConversion : Prop :=
  (∀ s : State, ∃ t, exec .init s = .next t ∧
    t = { s with est := 0#12, idx := 0, code := 0#4, pkHold := 0#4, pkHalf := false } ∧ sext12 t.est = 0 ∧
    (statusWord t).extractLsb' 0 27 = 0#27 ∧ (statusWord t).extractLsb' 27 5 = (statusWord s).extractLsb' 27 5) ∧
  encode .init = 0x1000#16 ∧ decode 0x1000#16 = .command .init ∧
  (∀ x : BitVec 12, x ≠ 0#12 → decode (0x1#4 ++ x) = .rejected .reservedBits)

/-- R111: ENC, its encoding, its corner cases and its example. -/
def Obligations.EncEncodesOneSample : Prop :=
  (∀ (s : State) (x : Sample),
    let c := quantize s.stepTable (sext12 x) (sext12 s.est) s.idx
    ∃ t, exec (.enc x) s = .next t ∧
      (sext12 t.est, (t.idx.val : Int)) = decodeSample s.stepTable c s.idx (sext12 s.est) ∧ t.code = c ∧
      (s.pkHalf = false → t.pkHold = c ∧ t.pkHalf = true ∧ t.out = s.out) ∧
      (s.pkHalf = true → t.pkHold = 0#4 ∧ t.pkHalf = false ∧ t.out = s.out ++ [.byte (c ++ s.pkHold)]) ∧
      t = { s with
        est := t.est, idx := t.idx, code := t.code, pkHold := t.pkHold, pkHalf := t.pkHalf, out := t.out }) ∧
  (∀ x : Sample, encode (.enc x) = 0x2#4 ++ x ∧ decode (0x2#4 ++ x) = .command (.enc x)) ∧
  (∀ s : State, 4 ≤ stepSize s.stepTable s.idx → ∃ t, exec (.enc s.est) s = .next t ∧ t.code = 0#4 ∧
    sext12 t.est = clamp (sext12 s.est + (stepSize s.stepTable s.idx >>> 3 : Nat)) (-2048) 2047) ∧
  (∀ (s : State) (x : Sample), stepSize s.stepTable 0 = 16 → s.idx = 0 → 1 ≤ sext12 s.est - sext12 x →
    sext12 s.est - sext12 x ≤ 3 →
    ∃ t, exec (.enc x) s = .next t ∧ t.code = 8#4 ∧ sext12 t.est = clamp (sext12 s.est - 2) (-2048) 2047) ∧
  (∀ (s : State) (x : Sample), s.stepTable = defaultStepTable →
    sext12 x - sext12 s.est = 4095 ∨ sext12 x - sext12 s.est = -4095 →
    ∃ t, exec (.enc x) s = .next t ∧ t.code.extractLsb' 0 3 = 7#3) ∧
  (∀ (s : State) (e : Int), stepSize s.stepTable 0 = 16 → s.idx = 0 → sext12 s.est = e → e = 2047 ∨ e = -2048 →
    ∃ t, exec (.enc s.est) s = .next t ∧ t.code = 0#4 ∧ sext12 t.est = if e = 2047 then 2047 else -2046) ∧
  (∀ s : State, stepSize s.stepTable 0 = 16 → s.est = 0#12 → s.idx = 0 → s.pkHalf = false →
    ∃ t, exec (.enc 100) s = .next t ∧ t.code = 7#4 ∧ sext12 t.est = 30 ∧ t.idx.val = 8 ∧ t.pkHold = 7#4 ∧
      t.pkHalf = true)

/-- R112: DEC, its encoding, its exception, its corner cases and its example. -/
def Obligations.DecDecodesOneCode : Prop :=
  (∀ (s : State) (c : Code), ∃ t, exec (.dec c) s = .next t ∧
    (sext12 t.est, (t.idx.val : Int)) = decodeSample s.stepTable c s.idx (sext12 s.est) ∧ t.code = c ∧
    t.out = s.out ++ [.sample t.est] ∧ t = { s with est := t.est, idx := t.idx, code := t.code, out := t.out } ∧
    (c = 0#4 → sext12 t.est = clamp (sext12 s.est + (stepSize s.stepTable s.idx >>> 3 : Nat)) (-2048) 2047) ∧
    (c = 8#4 → sext12 t.est = clamp (sext12 s.est - (stepSize s.stepTable s.idx >>> 3 : Nat)) (-2048) 2047) ∧
    (sext12 s.est = 2047 → c.toNat < 8 → sext12 t.est = 2047) ∧
    (sext12 s.est = -2048 → 8 ≤ c.toNat → sext12 t.est = -2048) ∧
    (s.idx = 0 → c.toNat % 8 ≤ 3 → t.idx = 0)) ∧
  (∀ c : Code, encode (.dec c) = 0x300#12 ++ c ∧ decode (0x300#12 ++ c) = .command (.dec c)) ∧
  (∀ x : BitVec 12, x.extractLsb' 4 8 ≠ 0#8 → decode (0x3#4 ++ x) = .rejected .reservedBits) ∧
  (∀ s : State, stepSize s.stepTable 0 = 16 → s.est = 0#12 → s.idx = 0 →
    ∃ t, exec (.dec 7) s = .next t ∧ pcmOut t = pcmOut s ++ [30#12] ∧ sext12 t.est = 30 ∧ t.idx.val = 8)

/-- R113: DECB is DEC of the low nibble and then DEC of the high nibble, in one command; its encoding, exception, corner cases
and example. -/
def Obligations.DecbDecodesLowThenHigh : Prop :=
  (∀ (s : State) (b : Byte), ∃ t u, exec (.dec (b.extractLsb' 0 4)) s = .next t ∧
    exec (.dec (b.extractLsb' 4 4)) t = .next u ∧ exec (.decb b) s = .next u ∧ u.code = b.extractLsb' 4 4 ∧
    u.out = s.out ++ [.sample t.est, .sample u.est] ∧
    u = { s with est := u.est, idx := u.idx, code := u.code, out := u.out } ∧
    (sext12 t.est, (t.idx.val : Int)) = decodeSample s.stepTable (b.extractLsb' 0 4) s.idx (sext12 s.est) ∧
    (sext12 u.est, (u.idx.val : Int)) = decodeSample s.stepTable (b.extractLsb' 4 4) t.idx (sext12 t.est) ∧
    (b.extractLsb' 4 4 = 0#4 →
      sext12 u.est = clamp (sext12 t.est + (stepSize s.stepTable t.idx >>> 3 : Nat)) (-2048) 2047) ∧
    (b = 0#8 →
      sext12 t.est = clamp (sext12 s.est + (stepSize s.stepTable s.idx >>> 3 : Nat)) (-2048) 2047)) ∧
  (∀ b : Byte, encode (.decb b) = 0x40#8 ++ b ∧ decode (0x40#8 ++ b) = .command (.decb b)) ∧
  (∀ x : BitVec 12, x.extractLsb' 8 4 ≠ 0#4 → decode (0x4#4 ++ x) = .rejected .reservedBits) ∧
  (∀ s : State, s.stepTable = defaultStepTable → s.est = 0#12 → s.idx = 0 →
    ∃ t, exec (.decb 0x77) s = .next t ∧ pcmOut t = pcmOut s ++ [30#12, 93#12] ∧ sext12 t.est = 93 ∧ t.idx.val = 16 ∧
      t.code = 7#4)

/-- R114: LDEST, its encoding and its example. -/
def Obligations.LdestLoadsEstimate : Prop :=
  (∀ (s : State) (x : Sample), exec (.ldest x) s = .next { s with est := x }) ∧
  (∀ v : Int, -2048 ≤ v → v ≤ 2047 → ∃ x : Sample, sext12 x = v ∧
    ∀ s : State, ∃ t, exec (.ldest x) s = .next t ∧ sext12 t.est = v) ∧
  (∀ x : Sample, encode (.ldest x) = 0x6#4 ++ x ∧ decode (0x6#4 ++ x) = .command (.ldest x)) ∧
  decode 0x6800#16 = .command (.ldest 0x800#12) ∧ sext12 0x800#12 = -2048

/-- R115: LDIDX, its encoding, and its two exceptions with the reserved bits first. -/
def Obligations.LdidxLoadsIndex : Prop :=
  (∀ (s : State) (k : BitVec 6), k.toNat ≤ 48 → ∃ t, exec (.ldidx k) s = .next t ∧ t.idx.val = k.toNat ∧
    t = { s with idx := t.idx }) ∧
  (∀ (s : State) (k : BitVec 6), 48 < k.toNat →
    exec (.ldidx k) s = .next { s with
      err := true
      cause := if s.err then s.cause else .operandRange
      errCmd := if s.err then s.errCmd else 0x1C0#10 ++ k }) ∧
  (∀ k : BitVec 6, k.toNat ≤ 48 → decode (0x1C0#10 ++ k) = .command (.ldidx k)) ∧
  (∀ k : BitVec 6, 48 < k.toNat → decode (0x1C0#10 ++ k) = .rejected .operandRange) ∧
  (∀ x : BitVec 12, x.extractLsb' 6 6 ≠ 0#6 → decode (0x7#4 ++ x) = .rejected .reservedBits) ∧
  decode 0x7030#16 = .command (.ldidx 48) ∧ decode 0x7031#16 = .rejected .operandRange ∧
  decode 0x703F#16 = .rejected .operandRange ∧ decode 0x7040#16 = .rejected .reservedBits

/-- R143: FLUSH emits a pending half-filled byte with a zero high nibble, once, and does nothing when none is pending; its
encoding, exception and example. -/
def Obligations.FlushEmitsPendingByte : Prop :=
  (∀ s : State, s.pkHalf = true → exec .flush s = .next { s with
    pkHold := 0#4, pkHalf := false, out := s.out ++ [.byte (0#4 ++ s.pkHold)] }) ∧
  (∀ s : State, s.pkHalf = false → exec .flush s = .next s) ∧
  (∀ s : State, ∃ t, exec .flush s = .next t ∧ t.pkHalf = false ∧ exec .flush t = .next t ∧
    ∀ x : Sample, ∃ u, exec (.enc x) t = .next u ∧ u.pkHold = u.code ∧ u.pkHalf = true ∧ byteOut u = byteOut t) ∧
  encode .flush = 0x5000#16 ∧ decode 0x5000#16 = .command .flush ∧
  (∀ x : BitVec 12, x ≠ 0#12 → decode (0x5#4 ++ x) = .rejected .reservedBits) ∧
  (∀ s : State, stepSize s.stepTable 0 = 16 →
    ∃ t, execAll [.init, .enc 100, .flush] s = .next t ∧ byteOut t = byteOut s ++ [0x07#8])

/-- R141: PACK holds the code of an even index and completes the byte at the code of an odd index, second code high. -/
def Obligations.PackPairsCodesLowFirst : Prop :=
  ∀ (c : Code) (s : State),
    (s.pkHalf = false → pack c s = { s with pkHold := c, pkHalf := true }) ∧
    (s.pkHalf = true → pack c s = { s with
      pkHold := 0#4, pkHalf := false, out := s.out ++ [.byte (BitVec.ofNat 8 (c.toNat <<< 4 ||| s.pkHold.toNat))] })

/-- R165: the frame of every command that is not rejected: which registers and channels each leaves as they were. -/
def Obligations.CommandsChangeOnlyWhatTheyAssign : Prop :=
  ∀ (i : Instr) (s : State), i.wellFormed = true → ∃ t, exec i s = .next t ∧
    t.err = s.err ∧ t.cause = s.cause ∧ t.errCmd = s.errCmd ∧ t.stepTable = s.stepTable ∧ t.port = s.port ∧
    (i.mnemonic ∈ [.nop, .flush, .ldidx] → t.est = s.est) ∧
    (i.mnemonic ∈ [.nop, .flush, .ldest] → t.idx = s.idx) ∧
    (i.mnemonic ∈ [.nop, .flush, .ldest, .ldidx] → t.code = s.code) ∧
    (i.mnemonic ∈ [.nop, .dec, .decb, .ldest, .ldidx] → t.pkHold = s.pkHold ∧ t.pkHalf = s.pkHalf) ∧
    (i.mnemonic ∈ [.nop, .init, .ldest, .ldidx] → t.out = s.out) ∧
    (i.mnemonic ∈ [.nop, .init, .dec, .decb, .ldest, .ldidx] → byteOut t = byteOut s) ∧
    (i.mnemonic ∈ [.nop, .init, .enc, .flush, .ldest, .ldidx] → pcmOut t = pcmOut s)

/-- R24: which command writes what into `CODE`, and that what stands there changes nothing else that a step does. -/
def Obligations.CodeIsOnlyForTheHost : Prop :=
  (∀ (s : State) (x : Sample), ∃ t, exec (.enc x) s = .next t ∧
    t.code = quantize s.stepTable (sext12 x) (sext12 s.est) s.idx) ∧
  (∀ (s : State) (c : Code), ∃ t, exec (.dec c) s = .next t ∧ t.code = c) ∧
  (∀ (s : State) (b : Byte), ∃ t, exec (.decb b) s = .next t ∧ t.code = b.extractLsb' 4 4) ∧
  (∀ s : State, ∃ t, exec .init s = .next t ∧ t.code = 0#4) ∧
  (∀ (s : State) (c : Code), ∃ t u, step s = .next t ∧ step { s with code := c } = .next u ∧
    { u with code := t.code } = t)

/-! ## The codec (40_codec.md) -/

/-- R103: DECODE over any table, code, index and integer estimate. -/
def Obligations.DecodeFollowsItsRule : Prop :=
  ∀ (tbl : StepTable) (c : Code) (n : StepIndex) (e : Int),
    let ss := tbl[n]
    let magnitude : Nat := ss >>> 3 + (if c.toNat % 2 = 1 then ss >>> 2 else 0)
      + (if c.toNat / 2 % 2 = 1 then ss >>> 1 else 0) + (if c.toNat / 4 % 2 = 1 then ss else 0)
    let delta : Int := if c.toNat / 8 % 2 = 1 then -(magnitude : Int) else magnitude
    decodeSample tbl c n e = (max (-2048) (min 2047 (e + delta)),
      max 0 (min 48 ((n.val : Int) + [-1, -1, -1, -1, 2, 4, 6, 8, -1, -1, -1, -1, 2, 4, 6, 8].getD c.toNat 0)))

/-- R105: the estimate saturates at both ends and never wraps, in `EST` as in DECODE. -/
def Obligations.EstimateSaturates : Prop :=
  ∀ (s : State) (c : Code),
    let sum := sext12 s.est + delta (stepSize s.stepTable s.idx) c
    ∃ t, exec (.dec c) s = .next t ∧ (2047 < sum → sext12 t.est = 2047) ∧ (sum < -2048 → sext12 t.est = -2048) ∧
      (-2048 ≤ sum → sum ≤ 2047 → sext12 t.est = sum)

/-- R106: the step index saturates at 0 and at 48, in `IDX` as in DECODE. -/
def Obligations.StepIndexSaturates : Prop :=
  (∀ (s : State) (c : Code), ∃ t, exec (.dec c) s = .next t ∧
    (t.idx.val : Int) = clamp ((s.idx.val : Int) + stepAdjust c) 0 48 ∧ (s.idx = 0 → c.toNat % 8 ≤ 3 → t.idx = 0) ∧
    (48 < (s.idx.val : Int) + stepAdjust c → t.idx = 48)) ∧
  (∀ s : State, s.idx = 47 → ∃ t, exec (.dec 5) s = .next t ∧ t.idx = 48)

/-- R101, R41: the step adjustments, by the table and by the formula, each in [-1, 8], and independent of the sign bit. -/
def Obligations.StepAdjustTable : Prop :=
  (∀ c : Code, stepAdjust c = [-1, -1, -1, -1, 2, 4, 6, 8, -1, -1, -1, -1, 2, 4, 6, 8].getD c.toNat 0) ∧
  (∀ c : Code, stepAdjust c = if c.getLsbD 2 then 2 * ((c.extractLsb' 0 2).toNat + 1 : Int) else -1) ∧
  (∀ c : Code, -1 ≤ stepAdjust c ∧ stepAdjust c ≤ 8 ∧ stepAdjust (c ^^^ 8#4) = stepAdjust c)

/-- R100: the default step table and its column of greatest magnitudes. -/
def Obligations.DefaultStepTableValues : Prop :=
  (List.finRange 49).map (stepSize defaultStepTable) =
    [16, 17, 19, 21, 23, 25, 28, 31, 34, 37, 41, 45, 50, 55, 60, 66, 73, 80, 88, 97, 107, 118, 130, 143, 157] ++
    [173, 190, 209, 230, 253, 279, 307, 337, 371, 408, 449, 494, 544, 598, 658, 724, 796, 876, 963] ++
    [1060, 1166, 1282, 1411, 1552] ∧
  (List.finRange 49).map (fun n => deltaMagnitude (stepSize defaultStepTable n) 7) =
    [30, 31, 34, 38, 41, 46, 52, 56, 63, 68, 76, 83, 93, 101, 112, 123, 136, 150, 165, 181, 199, 220, 243, 266] ++
    [293, 323, 355, 391, 430, 473, 521, 574, 631, 694, 765, 841, 925, 1020, 1120, 1233, 1357, 1492, 1642] ++
    [1804, 1987, 2185, 2403, 2644, 2910]

/-- R104: for a table whose entries are all at least 8 no delta is 0 and the estimate moves unless the clamp holds it; the sign
bit negates the delta exactly; the deltas at index 0. -/
def Obligations.DeltaNeverZero : Prop :=
  (∀ (tbl : StepTable), (∀ n : StepIndex, 8 ≤ stepSize tbl n) → ∀ (n : StepIndex) (c : Code),
    delta (stepSize tbl n) c ≠ 0 ∧
    ∀ e : Int, -2048 ≤ e → e ≤ 2047 → (decodeSample tbl c n e).1 = e → e = -2048 ∨ e = 2047) ∧
  (∀ n : StepIndex, 8 ≤ stepSize defaultStepTable n) ∧
  (∀ ss : Nat, delta ss 0 = (ss >>> 3 : Nat) ∧ delta ss 8 = -((ss >>> 3 : Nat) : Int)) ∧
  (∀ (ss : Nat) (c : Code), c.toNat < 8 → delta ss (c + 8) = -(delta ss c)) ∧
  (∀ tbl : StepTable, stepSize tbl 0 = 16 → ∀ c : Code, c.toNat < 8 →
    delta (stepSize tbl 0) c = [2, 6, 10, 14, 18, 22, 26, 30].getD c.toNat 0)

/-- R117: the closed form of QUANT for every positive step size, and its thresholds at index 0 and at index 48. -/
def Obligations.QuantizerClosedForm : Prop :=
  (∀ (tbl : StepTable) (n : StepIndex) (s e : Int), 0 < stepSize tbl n →
    let ss : Int := stepSize tbl n
    let h : Int := (stepSize tbl n >>> 1 : Nat)
    let q : Int := (stepSize tbl n >>> 2 : Nat)
    let m : Int := if s - e < 0 then -(s - e) else s - e
    let mag : Nat := if m < q then 0 else if m < h then 1 else if m < h + q then 2 else if m < ss then 3
      else if m < ss + q then 4 else if m < ss + h then 5 else if m < ss + h + q then 6 else 7
    q ≤ h ∧ h + q < ss ∧ (quantize tbl s e n).toNat = (if s - e < 0 then 8 + mag else mag)) ∧
  (∀ p ∈ [(0, [4, 8, 12, 16, 20, 24, 28]), (48, [388, 776, 1164, 1552, 1940, 2328, 2716])],
    let ss := stepSize defaultStepTable p.1
    [ss >>> 2, ss >>> 1, ss >>> 1 + ss >>> 2, ss, ss + ss >>> 2, ss + ss >>> 1, ss + ss >>> 1 + ss >>> 2] = p.2)

/-- R118: the ranges of the datapath's values over the default table, and that each assigned result is what its register reads
back, so no assignment wraps. -/
def Obligations.DatapathNeverWraps : Prop :=
  (∀ (x y : Sample), -4095 ≤ sext12 x - sext12 y ∧ sext12 x - sext12 y ≤ 4095) ∧
  (∀ (n : StepIndex) (c : Code), -2910 ≤ delta (stepSize defaultStepTable n) c ∧
    delta (stepSize defaultStepTable n) c ≤ 2910 ∧ -1 ≤ (n.val : Int) + stepAdjust c ∧
    (n.val : Int) + stepAdjust c ≤ 56) ∧
  (∀ (y : Sample) (n : StepIndex) (c : Code), -4958 ≤ sext12 y + delta (stepSize defaultStepTable n) c ∧
    sext12 y + delta (stepSize defaultStepTable n) c ≤ 4957) ∧
  (∀ (s : State) (c : Code), (sext12 (applyCode c s).est, ((applyCode c s).idx.val : Int)) =
    decodeSample s.stepTable c s.idx (sext12 s.est))

/-- R116: DECODE's results are in range for every integer estimate; ENC leaves the codec state that DEC of the code it produced
leaves, from every state; decoding a code sequence twice, each time after INIT, gives the same samples twice. -/
def Obligations.SourcePropertiesHold : Prop :=
  (∀ (tbl : StepTable) (c : Code) (n : StepIndex) (e : Int),
    (-2048 ≤ (decodeSample tbl c n e).1 ∧ (decodeSample tbl c n e).1 ≤ 2047) ∧
    (0 ≤ (decodeSample tbl c n e).2 ∧ (decodeSample tbl c n e).2 ≤ 48)) ∧
  (∀ (s : State) (x : Sample), ∃ t u, exec (.enc x) s = .next t ∧ exec (.dec t.code) s = .next u ∧
    t.est = u.est ∧ t.idx = u.idx ∧ t.code = u.code) ∧
  (∀ (codes : List Code) (s : State), ∃ t,
    execAll ((.init :: codes.map .dec) ++ (.init :: codes.map .dec)) s = .next t ∧
    let samples := (decodeEstimates s.stepTable codes 0 0).map narrowEst
    pcmOut t = pcmOut s ++ samples ++ samples)

/-- R116: an encode conversion and a decode conversion of its codes give the estimates the encoder had, over any step table. -/
def Obligations.DecoderReproducesEncoder : Prop :=
  ∀ (xs : List Sample) (s : State), ∃ t u,
    execAll (.init :: xs.map .enc) s = .next t ∧
    execAll (.init :: (encodeCodes s.stepTable xs 0 0).map .dec) s = .next u ∧ t.est = u.est ∧ t.idx = u.idx

/-- R110: what ENC and DEC make of the codec state depends on the operand, `EST`, `IDX` and the table alone. -/
def Obligations.CodecIsPure : Prop :=
  ∀ s s' : State, s.est = s'.est → s.idx = s'.idx → s.stepTable = s'.stepTable →
    (∀ x : Sample, ∃ t t', exec (.enc x) s = .next t ∧ exec (.enc x) s' = .next t' ∧ t.est = t'.est ∧ t.idx = t'.idx ∧
      t.code = t'.code) ∧
    (∀ c : Code, ∃ t t', exec (.dec c) s = .next t ∧ exec (.dec c) s' = .next t' ∧ t.est = t'.est ∧ t.idx = t'.idx ∧
      ∃ v, pcmOut t = pcmOut s ++ [v] ∧ pcmOut t' = pcmOut s' ++ [v])

/-! ## The packer (41_packer.md) and the streams -/

/-- R26: `PK_HALF` is the parity of the codes packed since the last INIT, FLUSH or reset, over any sequence of commands. -/
def Obligations.PackHalfIsParity : Prop :=
  (∀ (is : List Instr) (s : State) (n : Nat), s.pkHalf = decide (n % 2 = 1) →
    ∃ t, execAll is s = .next t ∧ t.pkHalf = decide (packedSince n is % 2 = 1)) ∧
  (∀ s : State, (hardwareReset s).pkHalf = false)

/-- R144: ENC of any samples from an empty packer and then FLUSH emit exactly the source's list of bytes, in its closed form too;
before FLUSH its last byte is missing when the number of samples is odd. -/
def Obligations.PackerEmitsSourceList : Prop :=
  ∀ (xs : List Sample) (s : State), s.pkHalf = false →
    let codes := encodeCodes s.stepTable xs s.idx (sext12 s.est)
    let bytes := sourcePack codes
    ∃ t u, execAll (xs.map .enc) s = .next t ∧ exec .flush t = .next u ∧ byteOut u = byteOut s ++ bytes ∧
      byteOut t = byteOut s ++ (if xs.length % 2 = 1 then bytes.dropLast else bytes) ∧
      codes.length = xs.length ∧
      ∀ k, k < (xs.length + 1) / 2 → bytes[k]? = some (codes.getD (2 * k + 1) 0#4 ++ codes.getD (2 * k) 0#4)

/-- R145, R147: the number of bytes is half the number of samples, rounded up; INIT and FLUSH with no ENC between emit none. -/
def Obligations.ByteCountIsHalfRoundedUp : Prop :=
  (∀ (xs : List Sample) (s : State), s.pkHalf = false →
    ∃ t, execAll (xs.map .enc ++ [.flush]) s = .next t ∧
      (byteOut t).length = (byteOut s).length + (xs.length + 1) / 2) ∧
  (∀ s : State, ∃ t, execAll [.init, .flush] s = .next t ∧ byteOut t = byteOut s)

/-- R146: with an odd number of samples the last byte is the last code with a zero high nibble; three samples give two bytes. -/
def Obligations.OddTailHighNibbleZero : Prop :=
  (∀ (xs : List Sample) (s : State), s.pkHalf = false → xs.length % 2 = 1 →
    ∃ t u, execAll (xs.map .enc) s = .next t ∧ exec .flush t = .next u ∧
      (byteOut u).getLast? = some (0#4 ++ t.code)) ∧
  (∀ (x y z : Sample) (s : State), s.pkHalf = false →
    ∃ t b b', execAll [.enc x, .enc y, .enc z, .flush] s = .next t ∧ byteOut t = byteOut s ++ [b, b'] ∧
      b'.extractLsb' 4 4 = 0#4)

/-- R148: unpacking the packed bytes gives the codes back, and the one nibble left over is 0. -/
def Obligations.UnpackingInvertsPacking : Prop :=
  ∀ codes : List Code, (unpack (sourcePack codes)).take codes.length = codes ∧
    (codes.length % 2 = 0 → unpack (sourcePack codes) = codes) ∧
    (codes.length % 2 = 1 → unpack (sourcePack codes) = codes ++ [0#4])

/-- R226: DECB of an odd stream's tail byte decodes the padding as code 0: one sample too many, the estimate up by an eighth of
the step, the index down by one or at 0. -/
def Obligations.TailPaddingDecodesAsCodeZero : Prop :=
  ∀ (s : State) (c : Code), ∃ t u, exec (.dec c) s = .next t ∧ exec (.decb (0#4 ++ c)) s = .next u ∧
    pcmOut u = pcmOut t ++ [u.est] ∧
    sext12 u.est = clamp (sext12 t.est + (stepSize s.stepTable t.idx >>> 3 : Nat)) (-2048) 2047 ∧
    u.idx.val = t.idx.val - 1

/-! ## The host's views, several engines, and the assembler -/

/-- R30, R31: STATUS field by field and by its formula, and ERRCMD. -/
def Obligations.StatusWordLayout : Prop :=
  ∀ s : State,
    (statusWord s).extractLsb' 0 12 = s.est ∧ ((statusWord s).extractLsb' 12 6).toNat = s.idx.val ∧
    (statusWord s).extractLsb' 18 4 = s.code ∧ (statusWord s).extractLsb' 22 4 = s.pkHold ∧
    (statusWord s).getLsbD 26 = s.pkHalf ∧ (statusWord s).getLsbD 27 = s.err ∧
    (statusWord s).extractLsb' 28 4 = (match s.cause with
      | .none => 0#4
      | .illegalOpcode => 1#4
      | .reservedBits => 2#4
      | .operandRange => 3#4) ∧
    (statusWord s).toNat = s.est.toNat ||| s.idx.val <<< 12 ||| s.code.toNat <<< 18 ||| s.pkHold.toNat <<< 22 |||
      s.pkHalf.toNat <<< 26 ||| s.err.toNat <<< 27 ||| s.cause.value.toNat <<< 28 ∧
    errCmdWord s = s.errCmd

/-- R38, R211: a step of one engine changes that engine alone. -/
def Obligations.EnginesAreIndependent : Prop :=
  ∀ (sys : System) (k : Nat), ∃ sys', systemStep k sys = .next sys' ∧ sys'.length = sys.length ∧
    (∀ j, j ≠ k → sys'[j]? = sys[j]?) ∧ (∀ s, sys[k]? = some s → ∃ t, step s = .next t ∧ sys'[k]? = some t)

/-- R67: what a line of assembly other than `.word` gives is accepted by the engine, so no operand out of range reaches it. -/
def Obligations.AssembledCommandsAreAccepted : Prop :=
  ∀ (l : AsmLine) (ws : List CmdWord), assembleLine l = some ws → (∀ v, l ≠ .word v) →
    ∀ w ∈ ws, ∃ i, decode w = .command i

/-- R68: LDSTATE is LDEST and then LDIDX and sets the codec state, and ENDSTREAM is FLUSH. -/
def Obligations.PseudoInstructionsExpand : Prop :=
  (∀ (e n : Int), -2048 ≤ e → e ≤ 2047 → 0 ≤ n → n ≤ 48 → ∃ i j,
    assembleLine (.command .ldest (some (.decimal e))) = some [encode i] ∧
    assembleLine (.command .ldidx (some (.decimal n))) = some [encode j] ∧
    assembleLine (.ldstate (.decimal e) (.decimal n)) = some [encode i, encode j] ∧
    ∀ s : State, ∃ t, execAll [i, j] s = .next t ∧ sext12 t.est = e ∧ (t.idx.val : Int) = n ∧
      t = { s with est := t.est, idx := t.idx }) ∧
  assembleLine .endstream = some [encode .flush] ∧ encode .flush = 0x5000#16
end

