-- ==== Sys2Proof/Laws/Decode.lean ====
section
/-! SUPPORT. The decoder on a word split into its opcode and its operand field (30_encoding.md R60): proofs case on the opcode and
keep the operand a variable. -/

namespace Sys2Proof

theorem word_split (w : CmdWord) : (opcodeOf w ++ operandOf w : CmdWord) = w := by
  apply BitVec.eq_of_getLsbD_eq
  intro i hi
  simp only [opcodeOf, operandOf, BitVec.getLsbD_append, BitVec.getLsbD_extractLsb']
  by_cases h : i < 12
  · simp [h]
  · simp only [h, if_false]
    rw [show 12 + (i - 12) = i by omega]
    simp; omega

@[simp] theorem opcodeOf_append (op : BitVec 4) (x : BitVec 12) : opcodeOf (op ++ x) = op :=
  BitVec.extractLsb'_append_eq_left

@[simp] theorem operandOf_append (op : BitVec 4) (x : BitVec 12) : operandOf (op ++ x) = x :=
  BitVec.extractLsb'_append_eq_right

/-- A field inside the operand field of a word is the same field of the operand. -/
theorem extract_append {k n : Nat} (h : k + n ≤ 12) (op : BitVec 4) (x : BitVec 12) :
    (op ++ x : CmdWord).extractLsb' k n = x.extractLsb' k n := by
  apply BitVec.eq_of_getLsbD_eq
  intro i hi
  simp only [BitVec.getLsbD_extractLsb', BitVec.getLsbD_append, hi, decide_true, Bool.true_and,
    show k + i < 12 by omega]
  rfl

/-- The decoder on a split word: what it answers depends on the opcode and the operand field alone. -/
theorem decode_append (op : BitVec 4) (x : BitVec 12) :
    decode (op ++ x : CmdWord) =
      if 8 ≤ op.toNat then .rejected .illegalOpcode
      else if x &&& reservedMask op ≠ 0#12 then .rejected .reservedBits
      else if op = 0x7#4 ∧ Config.idxMax < (x.extractLsb' 0 6).toNat then .rejected .operandRange
      else operation (op ++ x) := by
  simp only [decode, opcodeOf_append, operandOf_append, extract_append (show 0 + 6 ≤ 12 by decide)]

/-- The operation of a split word, its operand taken from the operand field. -/
theorem operation_append (op : BitVec 4) (x : BitVec 12) :
    operation (op ++ x : CmdWord) =
      match op with
      | 0x0#4 => .command .nop
      | 0x1#4 => .command .init
      | 0x2#4 => .command (.enc x)
      | 0x3#4 => .command (.dec (x.extractLsb' 0 4))
      | 0x4#4 => .command (.decb (x.extractLsb' 0 8))
      | 0x5#4 => .command .flush
      | 0x6#4 => .command (.ldest x)
      | 0x7#4 => .command (.ldidx (x.extractLsb' 0 6))
      | _ => .rejected .illegalOpcode := by
  have h12 : (op ++ x : CmdWord).extractLsb' 0 12 = x := BitVec.extractLsb'_append_eq_right
  unfold operation
  rewrite [opcodeOf_append, h12, extract_append (show 0 + 4 ≤ 12 by decide),
    extract_append (show 0 + 8 ≤ 12 by decide), extract_append (show 0 + 6 ≤ 12 by decide)]
  rfl

/-- A split word is a command exactly when no check of R160 fires and the opcode selects that command. -/
theorem decode_append_eq_command (op : BitVec 4) (x : BitVec 12) (i : Instr) :
    decode (op ++ x : CmdWord) = .command i ↔
      op.toNat < 8 ∧ x &&& reservedMask op = 0#12 ∧ ¬(op = 0x7#4 ∧ Config.idxMax < (x.extractLsb' 0 6).toNat) ∧
        operation (op ++ x) = .command i := by
  rw [decode_append]
  by_cases h1 : 8 ≤ op.toNat
  · simp [h1]
  · by_cases h2 : x &&& reservedMask op = 0#12
    · by_cases h3 : op = 0x7#4 ∧ Config.idxMax < (x.extractLsb' 0 6).toNat
      · rw [if_neg h1, if_neg (not_not_intro h2), if_pos h3]
        exact ⟨(nomatch ·), fun h => absurd h3 h.2.2.1⟩
      · rw [if_neg h1, if_neg (not_not_intro h2), if_neg h3]
        exact ⟨fun h => ⟨Nat.lt_of_not_le h1, h2, h3, h⟩, fun h => h.2.2.2⟩
    · simp [h1, h2]

/-- What holds of every split word holds of every word. -/
theorem forall_word_of_split {P : CmdWord → Prop} (h : ∀ (op : BitVec 4) (x : BitVec 12), P (op ++ x)) (w : CmdWord) :
    P w := word_split w ▸ h _ _

/-- An opcode is one of the eight defined ones or is reserved (R61, R63). -/
theorem opcode_cases {P : BitVec 4 → Prop} (h0 : P 0#4) (h1 : P 1#4) (h2 : P 2#4) (h3 : P 3#4) (h4 : P 4#4)
    (h5 : P 5#4) (h6 : P 6#4) (h7 : P 7#4) (reserved : ∀ op : BitVec 4, 8 ≤ op.toNat → P op) (op : BitVec 4) : P op := by
  have split : ∀ op : BitVec 4, 8 ≤ op.toNat ∨ op = 0#4 ∨ op = 1#4 ∨ op = 2#4 ∨ op = 3#4 ∨ op = 4#4 ∨ op = 5#4 ∨
      op = 6#4 ∨ op = 7#4 := by decide
  rcases split op with h | rfl | rfl | rfl | rfl | rfl | rfl | rfl | rfl
  · exact reserved op h
  all_goals assumption

end Sys2Proof
end

