-- ==== Sys2Proof/Laws/State.lean ====
section
/-! SUPPORT. What each named update of the state does to each field, so that no proof unfolds an update. -/

namespace Sys2Proof.Machine

/-! ### setEst -/

@[simp] theorem setEst_est (v : Int) (s : State) : (setEst v s).est = narrowEst v := rfl
@[simp] theorem setEst_idx (v : Int) (s : State) : (setEst v s).idx = s.idx := rfl
@[simp] theorem setEst_code (v : Int) (s : State) : (setEst v s).code = s.code := rfl
@[simp] theorem setEst_pkHold (v : Int) (s : State) : (setEst v s).pkHold = s.pkHold := rfl
@[simp] theorem setEst_pkHalf (v : Int) (s : State) : (setEst v s).pkHalf = s.pkHalf := rfl
@[simp] theorem setEst_err (v : Int) (s : State) : (setEst v s).err = s.err := rfl
@[simp] theorem setEst_cause (v : Int) (s : State) : (setEst v s).cause = s.cause := rfl
@[simp] theorem setEst_errCmd (v : Int) (s : State) : (setEst v s).errCmd = s.errCmd := rfl
@[simp] theorem setEst_stepTable (v : Int) (s : State) : (setEst v s).stepTable = s.stepTable := rfl
@[simp] theorem setEst_port (v : Int) (s : State) : (setEst v s).port = s.port := rfl
@[simp] theorem setEst_out (v : Int) (s : State) : (setEst v s).out = s.out := rfl

/-! ### setIdx -/

@[simp] theorem setIdx_est (v : Int) (s : State) : (setIdx v s).est = s.est := rfl
@[simp] theorem setIdx_idx (v : Int) (s : State) : (setIdx v s).idx = narrowIdx v := rfl
@[simp] theorem setIdx_code (v : Int) (s : State) : (setIdx v s).code = s.code := rfl
@[simp] theorem setIdx_pkHold (v : Int) (s : State) : (setIdx v s).pkHold = s.pkHold := rfl
@[simp] theorem setIdx_pkHalf (v : Int) (s : State) : (setIdx v s).pkHalf = s.pkHalf := rfl
@[simp] theorem setIdx_err (v : Int) (s : State) : (setIdx v s).err = s.err := rfl
@[simp] theorem setIdx_cause (v : Int) (s : State) : (setIdx v s).cause = s.cause := rfl
@[simp] theorem setIdx_errCmd (v : Int) (s : State) : (setIdx v s).errCmd = s.errCmd := rfl
@[simp] theorem setIdx_stepTable (v : Int) (s : State) : (setIdx v s).stepTable = s.stepTable := rfl
@[simp] theorem setIdx_port (v : Int) (s : State) : (setIdx v s).port = s.port := rfl
@[simp] theorem setIdx_out (v : Int) (s : State) : (setIdx v s).out = s.out := rfl

/-! ### setCode -/

@[simp] theorem setCode_est (c : Code) (s : State) : (setCode c s).est = s.est := rfl
@[simp] theorem setCode_idx (c : Code) (s : State) : (setCode c s).idx = s.idx := rfl
@[simp] theorem setCode_code (c : Code) (s : State) : (setCode c s).code = c := rfl
@[simp] theorem setCode_pkHold (c : Code) (s : State) : (setCode c s).pkHold = s.pkHold := rfl
@[simp] theorem setCode_pkHalf (c : Code) (s : State) : (setCode c s).pkHalf = s.pkHalf := rfl
@[simp] theorem setCode_err (c : Code) (s : State) : (setCode c s).err = s.err := rfl
@[simp] theorem setCode_cause (c : Code) (s : State) : (setCode c s).cause = s.cause := rfl
@[simp] theorem setCode_errCmd (c : Code) (s : State) : (setCode c s).errCmd = s.errCmd := rfl
@[simp] theorem setCode_stepTable (c : Code) (s : State) : (setCode c s).stepTable = s.stepTable := rfl
@[simp] theorem setCode_port (c : Code) (s : State) : (setCode c s).port = s.port := rfl
@[simp] theorem setCode_out (c : Code) (s : State) : (setCode c s).out = s.out := rfl

/-! ### setPacker -/

@[simp] theorem setPacker_est (c : Code) (h : Bool) (s : State) : (setPacker c h s).est = s.est := rfl
@[simp] theorem setPacker_idx (c : Code) (h : Bool) (s : State) : (setPacker c h s).idx = s.idx := rfl
@[simp] theorem setPacker_code (c : Code) (h : Bool) (s : State) : (setPacker c h s).code = s.code := rfl
@[simp] theorem setPacker_pkHold (c : Code) (h : Bool) (s : State) : (setPacker c h s).pkHold = c := rfl
@[simp] theorem setPacker_pkHalf (c : Code) (h : Bool) (s : State) : (setPacker c h s).pkHalf = h := rfl
@[simp] theorem setPacker_err (c : Code) (h : Bool) (s : State) : (setPacker c h s).err = s.err := rfl
@[simp] theorem setPacker_cause (c : Code) (h : Bool) (s : State) : (setPacker c h s).cause = s.cause := rfl
@[simp] theorem setPacker_errCmd (c : Code) (h : Bool) (s : State) : (setPacker c h s).errCmd = s.errCmd := rfl
@[simp] theorem setPacker_stepTable (c : Code) (h : Bool) (s : State) : (setPacker c h s).stepTable = s.stepTable := rfl
@[simp] theorem setPacker_port (c : Code) (h : Bool) (s : State) : (setPacker c h s).port = s.port := rfl
@[simp] theorem setPacker_out (c : Code) (h : Bool) (s : State) : (setPacker c h s).out = s.out := rfl

/-! ### emitByte -/

@[simp] theorem emitByte_est (b : Byte) (s : State) : (emitByte b s).est = s.est := rfl
@[simp] theorem emitByte_idx (b : Byte) (s : State) : (emitByte b s).idx = s.idx := rfl
@[simp] theorem emitByte_code (b : Byte) (s : State) : (emitByte b s).code = s.code := rfl
@[simp] theorem emitByte_pkHold (b : Byte) (s : State) : (emitByte b s).pkHold = s.pkHold := rfl
@[simp] theorem emitByte_pkHalf (b : Byte) (s : State) : (emitByte b s).pkHalf = s.pkHalf := rfl
@[simp] theorem emitByte_err (b : Byte) (s : State) : (emitByte b s).err = s.err := rfl
@[simp] theorem emitByte_cause (b : Byte) (s : State) : (emitByte b s).cause = s.cause := rfl
@[simp] theorem emitByte_errCmd (b : Byte) (s : State) : (emitByte b s).errCmd = s.errCmd := rfl
@[simp] theorem emitByte_stepTable (b : Byte) (s : State) : (emitByte b s).stepTable = s.stepTable := rfl
@[simp] theorem emitByte_port (b : Byte) (s : State) : (emitByte b s).port = s.port := rfl
@[simp] theorem emitByte_out (b : Byte) (s : State) : (emitByte b s).out = s.out ++ [.byte b] := rfl

/-! ### emitSample -/

@[simp] theorem emitSample_est (v : Int) (s : State) : (emitSample v s).est = s.est := rfl
@[simp] theorem emitSample_idx (v : Int) (s : State) : (emitSample v s).idx = s.idx := rfl
@[simp] theorem emitSample_code (v : Int) (s : State) : (emitSample v s).code = s.code := rfl
@[simp] theorem emitSample_pkHold (v : Int) (s : State) : (emitSample v s).pkHold = s.pkHold := rfl
@[simp] theorem emitSample_pkHalf (v : Int) (s : State) : (emitSample v s).pkHalf = s.pkHalf := rfl
@[simp] theorem emitSample_err (v : Int) (s : State) : (emitSample v s).err = s.err := rfl
@[simp] theorem emitSample_cause (v : Int) (s : State) : (emitSample v s).cause = s.cause := rfl
@[simp] theorem emitSample_errCmd (v : Int) (s : State) : (emitSample v s).errCmd = s.errCmd := rfl
@[simp] theorem emitSample_stepTable (v : Int) (s : State) : (emitSample v s).stepTable = s.stepTable := rfl
@[simp] theorem emitSample_port (v : Int) (s : State) : (emitSample v s).port = s.port := rfl
@[simp] theorem emitSample_out (v : Int) (s : State) : (emitSample v s).out = s.out ++ [.sample (narrowEst v)] := rfl

/-! ### clearConversion -/

@[simp] theorem clearConversion_est (s : State) : (clearConversion s).est = 0#12 := rfl
@[simp] theorem clearConversion_idx (s : State) : (clearConversion s).idx = 0 := rfl
@[simp] theorem clearConversion_code (s : State) : (clearConversion s).code = 0#4 := rfl
@[simp] theorem clearConversion_pkHold (s : State) : (clearConversion s).pkHold = 0#4 := rfl
@[simp] theorem clearConversion_pkHalf (s : State) : (clearConversion s).pkHalf = false := rfl
@[simp] theorem clearConversion_err (s : State) : (clearConversion s).err = s.err := rfl
@[simp] theorem clearConversion_cause (s : State) : (clearConversion s).cause = s.cause := rfl
@[simp] theorem clearConversion_errCmd (s : State) : (clearConversion s).errCmd = s.errCmd := rfl
@[simp] theorem clearConversion_stepTable (s : State) : (clearConversion s).stepTable = s.stepTable := rfl
@[simp] theorem clearConversion_port (s : State) : (clearConversion s).port = s.port := rfl
@[simp] theorem clearConversion_out (s : State) : (clearConversion s).out = s.out := rfl

/-! ### hardwareReset -/

@[simp] theorem hardwareReset_est (s : State) : (hardwareReset s).est = 0#12 := rfl
@[simp] theorem hardwareReset_idx (s : State) : (hardwareReset s).idx = 0 := rfl
@[simp] theorem hardwareReset_code (s : State) : (hardwareReset s).code = 0#4 := rfl
@[simp] theorem hardwareReset_pkHold (s : State) : (hardwareReset s).pkHold = 0#4 := rfl
@[simp] theorem hardwareReset_pkHalf (s : State) : (hardwareReset s).pkHalf = false := rfl
@[simp] theorem hardwareReset_err (s : State) : (hardwareReset s).err = false := rfl
@[simp] theorem hardwareReset_cause (s : State) : (hardwareReset s).cause = .none := rfl
@[simp] theorem hardwareReset_errCmd (s : State) : (hardwareReset s).errCmd = 0x0000#16 := rfl
@[simp] theorem hardwareReset_stepTable (s : State) : (hardwareReset s).stepTable = s.stepTable := rfl
@[simp] theorem hardwareReset_port (s : State) : (hardwareReset s).port = s.port := rfl
@[simp] theorem hardwareReset_out (s : State) : (hardwareReset s).out = s.out := rfl

/-! ### issueFirst -/

@[simp] theorem issueFirst_est (w : CmdWord) (s : State) : (issueFirst w s).est = s.est := rfl
@[simp] theorem issueFirst_idx (w : CmdWord) (s : State) : (issueFirst w s).idx = s.idx := rfl
@[simp] theorem issueFirst_code (w : CmdWord) (s : State) : (issueFirst w s).code = s.code := rfl
@[simp] theorem issueFirst_pkHold (w : CmdWord) (s : State) : (issueFirst w s).pkHold = s.pkHold := rfl
@[simp] theorem issueFirst_pkHalf (w : CmdWord) (s : State) : (issueFirst w s).pkHalf = s.pkHalf := rfl
@[simp] theorem issueFirst_err (w : CmdWord) (s : State) : (issueFirst w s).err = s.err := rfl
@[simp] theorem issueFirst_cause (w : CmdWord) (s : State) : (issueFirst w s).cause = s.cause := rfl
@[simp] theorem issueFirst_errCmd (w : CmdWord) (s : State) : (issueFirst w s).errCmd = s.errCmd := rfl
@[simp] theorem issueFirst_stepTable (w : CmdWord) (s : State) : (issueFirst w s).stepTable = s.stepTable := rfl
@[simp] theorem issueFirst_port (w : CmdWord) (s : State) : (issueFirst w s).port = .command w :: s.port := rfl
@[simp] theorem issueFirst_out (w : CmdWord) (s : State) : (issueFirst w s).out = s.out := rfl

/-! ### The two channels as views of the outputs (R37) -/

@[simp] theorem bytesOf_append (a b : List Output) : bytesOf (a ++ b) = bytesOf a ++ bytesOf b := by
  induction a with
  | nil => rfl
  | cons x rest ih => cases x <;> simp [bytesOf, ih]

@[simp] theorem samplesOf_append (a b : List Output) : samplesOf (a ++ b) = samplesOf a ++ samplesOf b := by
  induction a with
  | nil => rfl
  | cons x rest ih => cases x <;> simp [samplesOf, ih]

@[simp] theorem byteOut_emitByte (b : Byte) (s : State) : byteOut (emitByte b s) = byteOut s ++ [b] := by
  simp [byteOut, bytesOf]

@[simp] theorem pcmOut_emitByte (b : Byte) (s : State) : pcmOut (emitByte b s) = pcmOut s := by
  simp [pcmOut, samplesOf]

@[simp] theorem byteOut_emitSample (v : Int) (s : State) : byteOut (emitSample v s) = byteOut s := by
  simp [byteOut, bytesOf]

@[simp] theorem pcmOut_emitSample (v : Int) (s : State) :
    pcmOut (emitSample v s) = pcmOut s ++ [narrowEst v] := by
  simp [pcmOut, samplesOf]

theorem byteOut_congr {s t : State} (h : t.out = s.out) : byteOut t = byteOut s := by simp [byteOut, h]

theorem pcmOut_congr {s t : State} (h : t.out = s.out) : pcmOut t = pcmOut s := by simp [pcmOut, h]

end Sys2Proof.Machine
end

