-- ==== Sys2Proof/Laws/Ops.lean ====
section
/-! SUPPORT. One lemma per shared operation that says everything it can do, for proofs to cite instead of unfolding it. -/

namespace Sys2Proof.Machine

/-! ### Integers and narrowing (R12, R14, R118) -/

theorem clamp_bounds {lo hi : Int} (h : lo ≤ hi) (v : Int) : lo ≤ clamp v lo hi ∧ clamp v lo hi ≤ hi := by
  unfold clamp; split <;> (try split) <;> omega

theorem clamp_of_mem {v lo hi : Int} (h1 : lo ≤ v) (h2 : v ≤ hi) : clamp v lo hi = v := by
  unfold clamp; split <;> (try split) <;> omega

theorem clamp_mono {v w lo hi : Int} (hv : v ≤ w) (h : lo ≤ hi) : clamp v lo hi ≤ clamp w lo hi := by
  unfold clamp; split <;> split <;> (try split) <;> (try split) <;> omega

/-- A value of the estimate's range is read back unchanged from `EST`. -/
theorem sext12_narrowEst {v : Int} (h1 : -2048 ≤ v) (h2 : v ≤ 2047) : sext12 (narrowEst v) = v := by
  simp only [sext12, narrowEst, BitVec.toInt_ofInt]
  exact Int.bmod_eq_of_le (by omega) (by omega)

/-- What `EST` reads back is in the estimate's range (R21). -/
theorem sext12_bounds (x : Sample) : -2048 ≤ sext12 x ∧ sext12 x ≤ 2047 := by
  have h1 := BitVec.two_mul_toInt_lt (x := x)
  have h2 := BitVec.le_two_mul_toInt (x := x)
  simp only [sext12]; omega

@[simp] theorem narrowEst_sext12 (x : Sample) : narrowEst (sext12 x) = x := by
  simp [narrowEst, sext12]

/-- A value of the index range is read back unchanged from `IDX`. -/
theorem narrowIdx_val {v : Int} (h1 : 0 ≤ v) (h2 : v ≤ 48) : ((narrowIdx v).val : Int) = v := by
  simp only [narrowIdx, Fin.val_ofNat, Config.stepCount]; omega

/-! ### DECODE (R103) -/

theorem decodeSample_est_bounds (tbl : StepTable) (c : Code) (n : StepIndex) (e : Int) :
    -2048 ≤ (decodeSample tbl c n e).1 ∧ (decodeSample tbl c n e).1 ≤ 2047 :=
  clamp_bounds (by decide) _

theorem decodeSample_idx_bounds (tbl : StepTable) (c : Code) (n : StepIndex) (e : Int) :
    0 ≤ (decodeSample tbl c n e).2 ∧ (decodeSample tbl c n e).2 ≤ 48 :=
  clamp_bounds (by decide) _

/-- Applying a code puts DECODE's two results into `EST` and `IDX` unchanged, the code into `CODE`, and changes nothing
else. -/
theorem applyCode_spec (c : Code) (s : State) :
    (sext12 (applyCode c s).est, ((applyCode c s).idx.val : Int)) = decodeSample s.stepTable c s.idx (sext12 s.est) ∧
    applyCode c s = { s with est := (applyCode c s).est, idx := (applyCode c s).idx, code := c } := by
  have he := decodeSample_est_bounds s.stepTable c s.idx (sext12 s.est)
  have hn := decodeSample_idx_bounds s.stepTable c s.idx (sext12 s.est)
  refine ⟨?_, rfl⟩
  simp only [applyCode, setCode_est, setIdx_est, setEst_est, setCode_idx, setIdx_idx]
  rw [sext12_narrowEst he.1 he.2, narrowIdx_val hn.1 hn.2]

@[simp] theorem applyCode_stepTable (c : Code) (s : State) : (applyCode c s).stepTable = s.stepTable := rfl
@[simp] theorem applyCode_code (c : Code) (s : State) : (applyCode c s).code = c := rfl
@[simp] theorem applyCode_pkHold (c : Code) (s : State) : (applyCode c s).pkHold = s.pkHold := rfl
@[simp] theorem applyCode_pkHalf (c : Code) (s : State) : (applyCode c s).pkHalf = s.pkHalf := rfl
@[simp] theorem applyCode_err (c : Code) (s : State) : (applyCode c s).err = s.err := rfl
@[simp] theorem applyCode_cause (c : Code) (s : State) : (applyCode c s).cause = s.cause := rfl
@[simp] theorem applyCode_errCmd (c : Code) (s : State) : (applyCode c s).errCmd = s.errCmd := rfl
@[simp] theorem applyCode_port (c : Code) (s : State) : (applyCode c s).port = s.port := rfl
@[simp] theorem applyCode_out (c : Code) (s : State) : (applyCode c s).out = s.out := rfl

/-- Decoding one code emits the estimate that stands in `EST` afterwards (R55) and otherwise does what applying the code
does. -/
theorem decodeOne_spec (c : Code) (s : State) :
    decodeOne c s = { applyCode c s with out := s.out ++ [.sample (applyCode c s).est] } := rfl

/-! ### PACK (R141) -/

/-- PACK holds the nibble and emits nothing, or emits one byte and holds nothing; nothing else changes. -/
theorem pack_cases (c : Code) (s : State) :
    (s.pkHalf = false ∧ pack c s = { s with pkHold := c, pkHalf := true }) ∨
    (s.pkHalf = true ∧
      pack c s = { s with pkHold := 0#4, pkHalf := false, out := s.out ++ [.byte (packByte c s.pkHold)] }) := by
  unfold pack
  cases h : s.pkHalf
  · exact .inl ⟨rfl, rfl⟩
  · exact .inr ⟨rfl, rfl⟩

/-! ### Command errors and inputs (R203, R52) -/

/-- Raising an error records it when it is the first since reset, and changes nothing otherwise. -/
theorem raiseError_cases (e : CommandError) (w : CmdWord) (s : State) :
    (s.err = true ∧ raiseError e w s = s) ∨
    (s.err = false ∧ raiseError e w s = { s with err := true, cause := causeOf e, errCmd := w }) := by
  unfold raiseError
  cases h : s.err
  · exact .inr ⟨rfl, by simp⟩
  · exact .inl ⟨rfl, by simp⟩

theorem causeOf_ne_none (e : CommandError) : causeOf e ≠ .none := by cases e <;> decide

theorem takeInput_nil {s : State} (h : s.port = []) : takeInput s = none := by simp [takeInput, h]

theorem takeInput_cons {s : State} {x : HostInput} {rest : List HostInput} (h : s.port = x :: rest) :
    takeInput s = some (x, { s with port := rest }) := by simp [takeInput, h]

/-- Everything a step can be: idle, a reset, a rejected word, or a command. -/
theorem step_cases (s : State) :
    (s.port = [] ∧ step s = .next s) ∨
    (∃ rest, s.port = .reset :: rest ∧ step s = .next (hardwareReset { s with port := rest })) ∨
    (∃ w e rest, s.port = .command w :: rest ∧ decode w = .rejected e ∧
      step s = .next (raiseError e w { s with port := rest })) ∨
    (∃ w i rest, s.port = .command w :: rest ∧ decode w = .command i ∧ step s = exec i { s with port := rest }) := by
  cases hp : s.port with
  | nil => exact .inl ⟨rfl, by simp [step, takeInput_nil hp]⟩
  | cons x rest =>
    cases x with
    | reset => exact .inr (.inl ⟨rest, rfl, by simp [step, takeInput_cons hp, inputStep]⟩)
    | command w =>
      cases hd : decode w with
      | rejected e =>
        exact .inr (.inr (.inl ⟨w, e, rest, rfl, hd, by simp [step, takeInput_cons hp, inputStep, commandStep, hd]⟩))
      | command i =>
        exact .inr (.inr (.inr ⟨w, i, rest, rfl, hd, by simp [step, takeInput_cons hp, inputStep, commandStep, hd]⟩))

end Sys2Proof.Machine
end

