-- ==== Sys2Proof/Laws/Exec.lean ====
section
/-! SUPPORT. What holds of the execution of every command, and of sequences of commands, for proofs to cite instead of unfolding
exec. -/

namespace Sys2Proof.Machine

/-- Raising an error as one record: the error registers, written only when no error stands (R203). -/
theorem raiseError_eq (e : CommandError) (w : CmdWord) (s : State) :
    raiseError e w s = { s with
      err := true
      cause := if s.err then s.cause else causeOf e
      errCmd := if s.err then s.errCmd else w } := by
  rcases raiseError_cases e w s with ⟨h, hr⟩ | ⟨h, hr⟩ <;> rw [hr] <;> cases s <;> simp_all

/-- Every command of every state answers a next state. -/
theorem exec_answers_next (i : Instr) (s : State) : ∃ t, exec i s = .next t := by
  cases i with
  | flush => simp only [exec, execFlush]; split <;> exact ⟨_, rfl⟩
  | ldidx k => simp only [exec, execLdidx]; split <;> exact ⟨_, rfl⟩
  | nop | init | enc | dec | decb | ldest => exact ⟨_, rfl⟩

/-- A command neither reads nor writes the port: on another port it does the same. -/
theorem exec_with_port (i : Instr) {s t : State} (p : List HostInput) (h : exec i s = .next t) :
    exec i { s with port := p } = .next { t with port := p } := by
  cases i with
  | enc x =>
    cases h
    simp only [exec, execEnc, encodedCode, pack, applyCode]
    cases hh : s.pkHalf <;> simp [hh, setPacker, setCode, setEst, setIdx, emitByte]
  | flush =>
    simp only [exec, execFlush] at h ⊢
    split at h <;> cases h <;> simp [*] <;> rfl
  | ldidx k =>
    simp only [exec, execLdidx] at h ⊢
    split at h <;> cases h
    · simp [*, raiseError_eq]
    · simp [*]; rfl
  | nop | init | dec | decb | ldest => cases h; rfl

theorem execAll_cons {i : Instr} {rest : List Instr} {s t : State} (h : exec i s = .next t) :
    execAll (i :: rest) s = execAll rest t := by simp [execAll, h]

theorem execAll_append {a b : List Instr} {s t : State} (h : execAll a s = .next t) :
    execAll (a ++ b) s = execAll b t := by
  induction a generalizing s with
  | nil => cases h; rfl
  | cons i rest ih =>
    obtain ⟨u, hu⟩ := exec_answers_next i s
    rw [execAll_cons hu] at h
    rw [List.cons_append, execAll_cons hu]
    exact ih h

/-- Every sequence of commands completes. -/
theorem execAll_answers_next (is : List Instr) (s : State) : ∃ t, execAll is s = .next t := by
  induction is generalizing s with
  | nil => exact ⟨s, rfl⟩
  | cons i rest ih =>
    obtain ⟨t, ht⟩ := exec_answers_next i s
    rw [execAll_cons ht]
    exact ih t

end Sys2Proof.Machine
end

