-- ==== Sys2Proof/Laws/PerInstr.lean ====
section
/-! SUPPORT. The per-command families: EncodedOpcode says of each command, as syntax, what stands in its word's `op` field and
that its reserved bits are zero (30_encoding.md R60, R61). -/

namespace Sys2Proof.Laws.EncodedOpcode

/-- The `op` value of a mnemonic (R61). -/
def opOf : Mnemonic → BitVec 4
  | .nop => 0x0#4
  | .init => 0x1#4
  | .enc => 0x2#4
  | .dec => 0x3#4
  | .decb => 0x4#4
  | .flush => 0x5#4
  | .ldest => 0x6#4
  | .ldidx => 0x7#4

/-- A command's word carries its mnemonic's opcode, and none of its reserved bits is set. -/
def Statement (i : Instr) : Prop :=
  opcodeOf (encode i) = opOf i.mnemonic ∧ operandOf (encode i) &&& reservedMask (opOf i.mnemonic) = 0#12

theorem nop : Statement .nop := by unfold Statement; decide

theorem init : Statement .init := by unfold Statement; decide

theorem enc (s : Sample) : Statement (.enc s) := by
  refine ⟨?_, by simp [Instr.mnemonic, opOf, reservedMask]⟩
  simp only [opcodeOf, encode, Instr.mnemonic, opOf]
  exact BitVec.extractLsb'_append_eq_left

theorem dec (c : Code) : Statement (.dec c) := by unfold Statement; revert c; decide

theorem decb (b : Byte) : Statement (.decb b) := by unfold Statement; revert b; decide

theorem flush : Statement .flush := by unfold Statement; decide

theorem ldest (e : Sample) : Statement (.ldest e) := by
  refine ⟨?_, by simp [Instr.mnemonic, opOf, reservedMask]⟩
  simp only [opcodeOf, encode, Instr.mnemonic, opOf]
  exact BitVec.extractLsb'_append_eq_left

theorem ldidx (k : BitVec 6) : Statement (.ldidx k) := by unfold Statement; revert k; decide

end Sys2Proof.Laws.EncodedOpcode
end

