-- ==== Sys2Proof/Tests/Slice0.lean ====
section
/-! SUPPORT. Tests: the check of WellFormed, words written out from the spec's encodings, one or two steps per command against the
vectors of 95_test_vectors.md, and for every statement with hypotheses a state and operands that meet them. -/

namespace Sys2Proof.Tests

open Sys2Proof Sys2Proof.Machine

/-- A state at reset but for the codec pair, as the vectors' "state before" gives it. -/
def codecAt (e : Int) (n : StepIndex) : State := { State.reset with est := BitVec.ofInt 12 e, idx := n }

/-- A state at reset with a command word issued. -/
def issued (ws : List CmdWord) : State := { State.reset with port := ws.map .command }

/-- The next state of an outcome, if it is one. -/
def nextOf : Host.Outcome State Fault Refusal → Option State
  | .next s => some s
  | .fault _ => none
  | .refused _ => none

/-- `EST`, `IDX` and `CODE` after an outcome. -/
def codecAfter (o : Host.Outcome State Fault Refusal) : Option (Int × Nat × Nat) :=
  (nextOf o).map fun t => (sext12 t.est, t.idx.val, t.code.toNat)

/-- The outputs, `PK_HOLD` and `PK_HALF` after an outcome. -/
def packerAfter (o : Host.Outcome State Fault Refusal) : Option (List Output × Nat × Bool) :=
  (nextOf o).map fun t => (t.out, t.pkHold.toNat, t.pkHalf)

/-- STATUS and ERRCMD after an outcome. -/
def viewAfter (o : Host.Outcome State Fault Refusal) : Option (BitVec 32 × BitVec 16) :=
  (nextOf o).map fun t => (statusWord t, errCmdWord t)

/-! ### WellFormed (R62, R65) -/

theorem test_index_48_well_formed : (Instr.ldidx 48).wellFormed = true := by decide
theorem test_index_49_ill_formed : (Instr.ldidx 49).wellFormed = false := by decide

/-! ### Decode: words written out bit by bit from R61's patterns -/

theorem test_decode_nop : decode 0b0000000000000000#16 = .command .nop := by decide
theorem test_decode_init : decode 0b0001000000000000#16 = .command .init := by decide
/-- V3: ENC -28 is 0x2FE4. -/
theorem test_decode_enc : decode 0b0010111111100100#16 = .command (.enc (BitVec.ofInt 12 (-28))) := by decide
theorem test_decode_dec : decode 0b0011000000001011#16 = .command (.dec 0b1011#4) := by decide
theorem test_decode_decb : decode 0b0100000011110001#16 = .command (.decb 0b11110001#8) := by decide
theorem test_decode_flush : decode 0b0101000000000000#16 = .command .flush := by decide
theorem test_decode_ldest : decode 0b0110100000000001#16 = .command (.ldest 0b100000000001#12) := by decide
theorem test_decode_ldidx : decode 0b0111000000110000#16 = .command (.ldidx 0b110000#6) := by decide
/-- R63, R64, R65, R202. -/
theorem test_decode_rejects :
    decode 0x8000#16 = .rejected .illegalOpcode ∧ decode 0x0001#16 = .rejected .reservedBits ∧
    decode 0x7031#16 = .rejected .operandRange ∧ decode 0x7FFF#16 = .rejected .reservedBits := by decide
/-- The table's rows through the host's numbering of bits. -/
theorem test_decodeTableWord : decodeTableWord 16 0x3007 = some (.dec 7) ∧ decodeTableWord 16 0x3010 = none := by decide
/-- A placed word is the next one executed (V1, word 0x3007). -/
theorem test_withFetchWord : codecAfter (step (State.reset.withFetchWord 16 0x3007)) = some (30, 8, 7) := by decide

/-! ### One step per command (95_test_vectors.md) -/

/-- V7: NOP leaves STATUS 0. -/
theorem test_nop : viewAfter (step (issued [0x0000])) = some (0x00000000#32, 0x0000#16) := by decide
/-- V7: INIT keeps `ERR` and `CAUSE`, and R163 discards the nibble. -/
theorem test_init :
    viewAfter (exec .init { codecAt 30 8 with
      code := 7, pkHold := 7, pkHalf := true, err := true, cause := .illegalOpcode, errCmd := 0x8000 })
      = some (0x18000000#32, 0x8000#16) := by decide
/-- V3: ENC 0 at (2047, 48). -/
theorem test_enc_clamp_index : codecAfter (exec (.enc 0) (codecAt 2047 48)) = some (-87, 48, 13) := by decide
/-- P6 step 3: the second code of a pair, byte 0xF7. -/
theorem test_enc_completes_byte :
    packerAfter (exec (.enc (BitVec.ofInt 12 (-2048))) { codecAt 30 8 with pkHold := 7, pkHalf := true })
      = some ([.byte 0xF7], 0, false) := by decide
/-- V2: DEC 7 at (0, 47), both clamp. -/
theorem test_dec_clamps : codecAfter (exec (.dec 7) (codecAt 0 47)) = some (2047, 48, 7) := by decide
/-- V2: DEC 11 at (5, 0); the packer keeps its nibble (R112). -/
theorem test_dec_emits :
    packerAfter (exec (.dec 11) { codecAt 5 0 with pkHold := 3, pkHalf := true })
      = some ([.sample (BitVec.ofInt 12 (-9))], 3, true) := by decide
/-- V4: DECB 0x80 at (0, 0), low nibble first. -/
theorem test_decb_low_first : packerAfter (exec (.decb 0x80) (codecAt 0 0)) = some ([.sample 2, .sample 0], 0, false) := by
  decide
/-- V4: DECB 0x70 at (2047, 48). -/
theorem test_decb_clamps : codecAfter (exec (.decb 0x70) (codecAt 2047 48)) = some (2047, 48, 7) := by decide
/-- R143's example: one ENC 100 pending, FLUSH emits 0x07. -/
theorem test_flush_tail :
    packerAfter (exec .flush { codecAt 30 8 with pkHold := 7, pkHalf := true }) = some ([.byte 0x07], 0, false) := by decide
/-- V5: LDEST 2047 at (5, 7). -/
theorem test_ldest : codecAfter (exec (.ldest 0x7FF) (codecAt 5 7)) = some (2047, 7, 0) := by decide
/-- V5: LDIDX 0 at (9, 20). -/
theorem test_ldidx : codecAfter (exec (.ldidx 0) (codecAt 9 20)) = some (9, 0, 0) := by decide
/-- V7: a rejected LDIDX from reset. -/
theorem test_ldidx_rejected : viewAfter (step (issued [0x7031])) = some (0x38000000#32, 0x7031#16) := by decide
/-- V7: the first error is kept. -/
theorem test_first_error_kept :
    viewAfter (step { issued [0x7031] with err := true, cause := .illegalOpcode, errCmd := 0x8000 })
      = some (0x18000000#32, 0x8000#16) := by decide
/-- R30: STATUS after P1 step 2 (30, 8), CODE 7, nibble 7 held. -/
theorem test_status_word :
    statusWord { codecAt 30 8 with code := 7, pkHold := 7, pkHalf := true } = 0x05DC801E#32 := by decide
/-- V3 thresholds at index 48: 2715 gives code 6 and 2716 gives code 7. -/
theorem test_quantizer_threshold :
    quantize defaultStepTable 2715 0 48 = 6 ∧ quantize defaultStepTable 2716 0 48 = 7 ∧
    quantize defaultStepTable (-2716) 0 48 = 15 := by decide
/-- 91_not_in_source.md N2: a table with an entry below 8 gives code 0 a zero delta. -/
theorem test_small_step_zero_delta : delta 7 0 = 0 := by decide
/-- V6: codes 1, 2, 3, 4 give 0x21, 0x43, and 7, 7, 0 give 0x77, 0x00. -/
theorem test_source_pack : sourcePack [1, 2, 3, 4] = [0x21, 0x43] ∧ sourcePack [7, 7, 0] = [0x77, 0x00] := by decide
/-- R67: "enc -1 ; x" is word 0x2FFF (V3), in either case and with a comment. -/
theorem test_assemble_enc : assembleText ['e', 'n', 'c', ' ', '-', '1', ' ', ';', 'x'] = some [0x2FFF] := by decide
/-- R67: "LDIDX 49" is an assembly error. -/
theorem test_assemble_range : assembleText ['L', 'D', 'I', 'D', 'X', ' ', '4', '9'] = none := by decide
/-- R67: ".word 0x8000" is the raw word. -/
theorem test_assemble_word :
    assembleText ['.', 'w', 'o', 'r', 'd', ' ', '0', 'x', '8', '0', '0', '0'] = some [0x8000] := by decide
/-- R68: "LDSTATE 5, 7" is LDEST 5 and LDIDX 7. -/
theorem test_assemble_ldstate :
    assembleText ['L', 'D', 'S', 'T', 'A', 'T', 'E', ' ', '5', ',', ' ', '7'] = some [0x6005, 0x7007] := by decide

/-! ### Witnesses: for every statement with hypotheses, a state and operands that meet them -/

theorem test_meets_DecodeInvertsEncode : ∀ i ∈ [Instr.nop, .enc 0xFFF, .dec 15, .decb 0xFF, .ldidx 48], i.wellFormed = true := by
  decide
theorem test_meets_EncodeInvertsDecode : decode 0x7030#16 = .command (.ldidx 48) := by decide
theorem test_meets_OpcodeMapByMatchAndMask : 8 ≤ ((0x8000#16).extractLsb' 12 4).toNat := by decide
theorem test_meets_OperandsFromTheirBits :
    decode 0x5000#16 = .command .flush ∧ decode 0x27FF#16 = .command (.enc 0x7FF) ∧ decode 0x300F#16 = .command (.dec 15) ∧
    decode 0x40FF#16 = .command (.decb 0xFF) ∧ decode 0x6800#16 = .command (.ldest 0x800) ∧
    decode 0x7030#16 = .command (.ldidx 48) := by decide
theorem test_meets_ReservedOpcodeRejected :
    (issued [0x8000]).port = .command 0x8000 :: [] ∧ 8 ≤ ((0x8000#16).extractLsb' 12 4).toNat := by decide
theorem test_meets_ReservedBitsRejected :
    (issued [0x3010]).port = .command (0x3#4 ++ 0x010#12) :: [] ∧ 0x010#12 &&& 0xFF0#12 ≠ 0#12 ∧
    0x001#12 &&& 0xFFF#12 ≠ 0#12 ∧ 0x100#12 &&& 0xF00#12 ≠ 0#12 ∧ 0x040#12 &&& 0xFC0#12 ≠ 0#12 := by decide
theorem test_meets_IndexOperandRangeRejected :
    (issued [0x7031]).port = .command (0x1C0#10 ++ 49#6) :: [] ∧ 48 < (49#6).toNat ∧
    decode 0x7031#16 = .rejected .operandRange := by decide
theorem test_meets_LowestCauseReported :
    decode 0x8000#16 = .rejected .illegalOpcode ∧ decode 0x7040#16 = .rejected .reservedBits ∧
    decode 0x703F#16 = .rejected .operandRange := by decide
theorem test_meets_CommandStepChecksThenRuns :
    8 ≤ (opcodeOf 0xF123).toNat ∧ operandOf 0x4100 &&& reservedMask (opcodeOf 0x4100) ≠ 0#12 ∧
    (opcodeOf 0x7031 = 0x7#4 ∧ 48 < ((0x7031#16).extractLsb' 0 6).toNat) ∧ opcodeOf 0x7030 = 0x7#4 := by decide
theorem test_meets_StepRunsDecodedCommand :
    (issued [0x2064]).port = .command 0x2064 :: [] ∧ decode 0x2064#16 = .command (.enc 100) := by decide
theorem test_meets_StepHoldsStateWhenNothingIssued : State.reset.port = [] := by decide
theorem test_meets_StepAppliesHardwareReset : { codecAt 5 7 with port := [.reset] }.port = .reset :: [] := by decide
/-- The invariant holds at a state with an error, a held nibble and the table of reset, and the step there goes on. -/
theorem test_meets_StepKeepsInvariant :
    StateInv { codecAt 5 7 with
      err := true, cause := .reservedBits, errCmd := 0x0001, pkHold := 3, pkHalf := true, port := [.command 0x5000] } := by
  unfold StateInv packInv errInv tableInv; decide
theorem test_meets_ErrorIsPreciseAndFirstKept :
    (issued [0x0001]).port = .command 0x0001 :: [] ∧ decode 0x0001#16 = .rejected .reservedBits ∧
    (issued [0x0001]).err = false ∧ { issued [0x0001] with err := true }.err = true := by decide
/-- From a safe state a step goes on, at an accepted and at a rejected word. -/
theorem test_meets_ErrorsArePreciselyRejectedWords :
    (issued [0x8000]).err = false ∧ ((nextOf (step (issued [0x8000]))).map fun t => t.err) = some true ∧
    ((nextOf (step (issued [0x7030]))).map fun t => t.err) = some false := by decide
theorem test_meets_EngineGoesOnAfterError :
    (issued [0x8000, 0x2005]).port = .command 0x8000 :: .command 0x2005 :: [] ∧
    decode 0x8000#16 = .rejected .illegalOpcode := by decide
theorem test_meets_OnlyResetClearsErrors :
    { issued [0x1000] with err := true }.err = true ∧ (issued [0x1000]).port.head? ≠ some .reset ∧
    { State.reset with port := [.reset] }.port = .reset :: [] := by decide
/-- Steps that answer a next state, for the statements about any step (StepNeverWritesStepTable,
StepTakesOneInputAndAppends). -/
theorem test_meets_step_statements : (nextOf (step (issued [0x3007]))).isSome = true ∧ (nextOf (step State.reset)).isSome = true := by
  decide
theorem test_meets_CommandsRunInIssueOrder :
    (∀ i ∈ [Instr.init, .enc 100, .flush], i.wellFormed = true) ∧
    (issued [0x1000, 0x2064, 0x5000]).port = [Instr.init, .enc 100, .flush].map (fun i => .command (encode i)) ++ [] := by
  decide
theorem test_meets_NopChangesNothing : (1#12 : BitVec 12) ≠ 0#12 := by decide
theorem test_meets_EncEncodesOneSample :
    (codecAt 0 0).pkHalf = false ∧ { codecAt 0 0 with pkHalf := true }.pkHalf = true ∧
    4 ≤ stepSize (codecAt 0 0).stepTable (codecAt 0 0).idx ∧ stepSize (codecAt 0 0).stepTable 0 = 16 ∧
    (1 ≤ sext12 (codecAt 3 0).est - sext12 0 ∧ sext12 (codecAt 3 0).est - sext12 0 ≤ 3) ∧
    (codecAt 0 0).stepTable = defaultStepTable ∧
    sext12 0x7FF - sext12 (codecAt (-2048) 48).est = 4095 ∧ sext12 0x800 - sext12 (codecAt 2047 48).est = -4095 ∧
    sext12 (codecAt 2047 0).est = 2047 ∧ sext12 (codecAt (-2048) 0).est = -2048 ∧ (codecAt 0 0).est = 0#12 := by decide
theorem test_meets_DecDecodesOneCode :
    sext12 (codecAt 2047 48).est = 2047 ∧ (7#4).toNat < 8 ∧ sext12 (codecAt (-2048) 0).est = -2048 ∧ 8 ≤ (8#4).toNat ∧
    (codecAt 5 0).idx = 0 ∧ (11#4).toNat % 8 ≤ 3 ∧ (0x010#12).extractLsb' 4 8 ≠ 0#8 ∧
    stepSize (codecAt 0 0).stepTable 0 = 16 ∧ (codecAt 0 0).est = 0#12 := by decide
theorem test_meets_DecbDecodesLowThenHigh :
    (0x08#8).extractLsb' 4 4 = 0#4 ∧ (0x100#12).extractLsb' 8 4 ≠ 0#4 ∧ (codecAt 0 0).stepTable = defaultStepTable ∧
    (codecAt 0 0).est = 0#12 ∧ (codecAt 0 0).idx = 0 := by decide
theorem test_meets_LdestLoadsEstimate : (-2048 : Int) ≤ 2047 ∧ sext12 0x7FF = 2047 := by decide
theorem test_meets_LdidxLoadsIndex : (48#6).toNat ≤ 48 ∧ 48 < (49#6).toNat ∧ (0x040#12).extractLsb' 6 6 ≠ 0#6 := by decide
/-- A held nibble and an empty packer (FlushEmitsPendingByte, PackPairsCodesLowFirst, and the packer statements). -/
theorem test_meets_packer_statements :
    { codecAt 0 0 with pkHold := 7, pkHalf := true }.pkHalf = true ∧ (codecAt 0 0).pkHalf = false ∧
    stepSize (codecAt 0 0).stepTable 0 = 16 ∧ [(100 : Sample), 100, 100].length % 2 = 1 := by decide
theorem test_meets_CommandsChangeOnlyWhatTheyAssign :
    (Instr.ldidx 48).wellFormed = true ∧ (Instr.ldidx 48).mnemonic ∈ [Mnemonic.nop, .flush, .ldidx] ∧
    (Instr.ldest 0).mnemonic ∈ [Mnemonic.nop, .flush, .ldest] ∧ (Instr.dec 7).mnemonic ∈ [Mnemonic.nop, .dec, .decb, .ldest, .ldidx] ∧
    Instr.init.mnemonic ∈ [Mnemonic.nop, .init, .ldest, .ldidx] ∧
    (Instr.decb 0).mnemonic ∈ [Mnemonic.nop, .init, .dec, .decb, .ldest, .ldidx] ∧
    (Instr.enc 0).mnemonic ∈ [Mnemonic.nop, .init, .enc, .flush, .ldest, .ldidx] := by decide
/-- V2: sums 2049, -2050 and 2047 exactly. -/
theorem test_meets_EstimateSaturates :
    2047 < sext12 (codecAt 2047 0).est + delta (stepSize defaultStepTable 0) 0 ∧
    sext12 (codecAt (-2048) 0).est + delta (stepSize defaultStepTable 0) 8 < -2048 ∧
    sext12 (codecAt 2045 0).est + delta (stepSize defaultStepTable 0) 0 = 2047 := by decide
theorem test_meets_StepIndexSaturates :
    (codecAt 0 0).idx = 0 ∧ 48 < ((codecAt 100 41).idx.val : Int) + stepAdjust 7 ∧ (codecAt 0 47).idx = 47 := by decide
theorem test_meets_DeltaNeverZero : (∀ n : StepIndex, 8 ≤ stepSize defaultStepTable n) ∧ stepSize defaultStepTable 0 = 16 ∧
    (7#4).toNat < 8 ∧ (decodeSample defaultStepTable 0 0 2047).1 = 2047 := by decide
theorem test_meets_QuantizerClosedForm : 0 < stepSize defaultStepTable 48 := by decide
theorem test_meets_CodecIsPure :
    (codecAt 30 8).est = { codecAt 30 8 with err := true, pkHalf := true }.est ∧
    (codecAt 30 8).stepTable = { codecAt 30 8 with err := true, pkHalf := true }.stepTable := by decide
theorem test_meets_PackHalfIsParity :
    State.reset.pkHalf = decide (0 % 2 = 1) ∧ { State.reset with pkHalf := true }.pkHalf = decide (1 % 2 = 1) := by decide
theorem test_meets_UnpackingInvertsPacking : [(7 : Code), 7].length % 2 = 0 ∧ [(7 : Code), 7, 0].length % 2 = 1 := by decide
theorem test_meets_EnginesAreIndependent : (1 : Nat) ≠ 0 ∧ [State.reset, codecAt 5 7][0]? = some State.reset := by decide
theorem test_meets_AssembledCommandsAreAccepted :
    assembleLine (.command .ldidx (some (.decimal 48))) = some [0x7030] ∧
    assembleLine (.ldstate (.decimal (-2048)) (.decimal 48)) = some [0x6800, 0x7030] := by decide
theorem test_meets_PseudoInstructionsExpand : (-2048 : Int) ≤ -2048 ∧ (-2048 : Int) ≤ 2047 ∧ (0 : Int) ≤ 48 ∧ (48 : Int) ≤ 48 := by
  decide

end Sys2Proof.Tests
end

section
/-! PROOFS of 00_scope.md. The machine's invariant (packer R25, error registers R28 and R29, step table R9) holds at reset and
is kept by each operation on the state, so by each command and by each step; and a step with nothing issued changes
nothing (R213). -/

namespace Sys2Proof.Machine

/-! ### What FLUSH and LDIDX can do -/

/-- FLUSH does nothing when no nibble is held, and otherwise emits it and empties the packer (R143). -/
theorem exec_flush_cases (s : State) :
    (s.pkHalf = false ∧ exec .flush s = .next s) ∨
    (s.pkHalf = true ∧ exec .flush s = .next (setPacker 0#4 false (emitByte (s.pkHold.setWidth 8) s))) := by
  simp only [exec, execFlush]
  cases h : s.pkHalf
  · exact .inl ⟨rfl, rfl⟩
  · exact .inr ⟨rfl, rfl⟩

/-- LDIDX loads an index of at most 48 and raises OPERAND_RANGE for any other operand (R115). -/
theorem exec_ldidx_cases (k : BitVec 6) (s : State) :
    (k.toNat ≤ 48 ∧ exec (.ldidx k) s = .next (setIdx k.toNat s)) ∨
    (48 < k.toNat ∧ exec (.ldidx k) s = .next (raiseError .operandRange (encode (.ldidx k)) s)) := by
  simp only [exec, execLdidx]
  split
  case isTrue h => exact .inr ⟨h, rfl⟩
  case isFalse h => exact .inl ⟨Nat.le_of_not_lt h, rfl⟩

/-! ### Updates of what the invariant does not speak of -/

@[simp] theorem stateInv_withPort (p : List HostInput) (s : State) : StateInv { s with port := p } ↔ StateInv s := Iff.rfl
@[simp] theorem stateInv_setEst (v : Int) (s : State) : StateInv (setEst v s) ↔ StateInv s := Iff.rfl
@[simp] theorem stateInv_setIdx (v : Int) (s : State) : StateInv (setIdx v s) ↔ StateInv s := Iff.rfl
@[simp] theorem stateInv_setCode (c : Code) (s : State) : StateInv (setCode c s) ↔ StateInv s := Iff.rfl
@[simp] theorem stateInv_emitByte (b : Byte) (s : State) : StateInv (emitByte b s) ↔ StateInv s := Iff.rfl
@[simp] theorem stateInv_emitSample (v : Int) (s : State) : StateInv (emitSample v s) ↔ StateInv s := Iff.rfl

@[simp] theorem stateInv_applyCode (c : Code) (s : State) : StateInv (applyCode c s) ↔ StateInv s := by simp [applyCode]

@[simp] theorem stateInv_decodeOne (c : Code) (s : State) : StateInv (decodeOne c s) ↔ StateInv s := by simp [decodeOne]

/-! ### Updates of the packer and the error registers -/

/-- Whatever is written to the packer, the invariant asks only that an empty packer hold 0 (R25). -/
theorem stateInv_setPacker {c : Code} {h : Bool} {s : State} (hc : h = false → c = 0#4) (hs : StateInv s) :
    StateInv (setPacker c h s) := by
  obtain ⟨-, herr, htable⟩ := hs
  exact ⟨hc, herr, htable⟩

theorem stateInv_pack (c : Code) {s : State} (hs : StateInv s) : StateInv (pack c s) := by
  unfold pack
  split
  · exact stateInv_setPacker (fun _ => rfl) ((stateInv_emitByte _ s).2 hs)
  · exact stateInv_setPacker nofun hs

theorem stateInv_clearConversion {s : State} (hs : StateInv s) : StateInv (clearConversion s) :=
  stateInv_setPacker (fun _ => rfl) (by simpa using hs)

theorem stateInv_hardwareReset {s : State} (hs : StateInv s) : StateInv (hardwareReset s) := by
  obtain ⟨hpack, -, htable⟩ := stateInv_clearConversion hs
  exact ⟨hpack, ⟨iff_of_true rfl rfl, fun _ => rfl⟩, htable⟩

/-- A first error sets `ERR` and a cause other than NONE together; a later one writes nothing (R28, R203). -/
theorem stateInv_raiseError (e : CommandError) (w : CmdWord) {s : State} (hs : StateInv s) :
    StateInv (raiseError e w s) := by
  rcases raiseError_cases e w s with ⟨-, hr⟩ | ⟨-, hr⟩ <;> rw [hr]
  case inl => exact hs
  case inr =>
    obtain ⟨hpack, -, htable⟩ := hs
    exact ⟨hpack, ⟨iff_of_false (causeOf_ne_none e) nofun, nofun⟩, htable⟩

/-! ### Commands, steps and reset -/

/-- Every command keeps the invariant. -/
theorem exec_keeps_stateInv {i : Instr} {s t : State} (hs : StateInv s) (h : exec i s = .next t) : StateInv t := by
  cases i with
  | nop => cases h; exact hs
  | init => cases h; exact stateInv_clearConversion hs
  | enc x => cases h; exact stateInv_pack _ ((stateInv_applyCode _ s).2 hs)
  | dec c => cases h; simpa using hs
  | decb b => cases h; simpa using hs
  | flush =>
    rcases exec_flush_cases s with ⟨-, he⟩ | ⟨-, he⟩ <;> cases he.symm.trans h
    · exact hs
    · exact stateInv_setPacker (fun _ => rfl) ((stateInv_emitByte _ s).2 hs)
  | ldest x => cases h; simpa using hs
  | ldidx k =>
    rcases exec_ldidx_cases k s with ⟨-, he⟩ | ⟨-, he⟩ <;> cases he.symm.trans h
    · simpa using hs
    · exact stateInv_raiseError _ _ hs

/-- Settles O19, by the four things a step can be: idle, a hardware reset, a rejected word or a command. -/
theorem stepKeepsInvariant : Obligations.StepKeepsInvariant := by
  intro s t hs h
  have taken (rest : List HostInput) : StateInv { s with port := rest } := (stateInv_withPort rest s).2 hs
  rcases step_cases s with ⟨-, hst⟩ | ⟨rest, -, hst⟩ | ⟨w, e, rest, -, -, hst⟩ | ⟨w, i, rest, -, -, hst⟩ <;> rw [hst] at h
  · cases h; exact hs
  · cases h; exact stateInv_hardwareReset (taken rest)
  · cases h; exact stateInv_raiseError e w (taken rest)
  · exact exec_keeps_stateInv (taken rest) h

/-- Settles O13: with an empty port there is no input to take. -/
theorem stepHoldsStateWhenNothingIssued : Obligations.StepHoldsStateWhenNothingIssued := by
  intro s hport
  simp [step, takeInput_nil hport]

/-- The default step table is one the parameter `STEP_TABLE` may take (R9, R100). -/
theorem tableInv_defaultStepTable : tableInv defaultStepTable := by unfold tableInv; decide

/-- Settles O18: at reset the packer is empty, no error stands, and the table is the default one. -/
theorem resetMeetsInvariant : Obligations.ResetMeetsInvariant :=
  ⟨fun _ => rfl, ⟨iff_of_true rfl rfl, fun _ => rfl⟩, tableInv_defaultStepTable⟩

end Sys2Proof.Machine
end

section
/-! PROOFS of 10_state.md. The registers as the host sees them (R30, R34) and who writes them: `CODE` (R24), `PK_HALF` (R26) and
the error registers (R27); what a step takes from the port and puts into the channels (R37); and engines side by side
(R38). -/

namespace Sys2Proof.Machine

/-! ### What PACK and raising an error leave as they were -/

/-- PACK writes the packer registers and the outputs alone (R141). -/
theorem pack_frame (c : Code) (s : State) :
    pack c s = { s with pkHold := (pack c s).pkHold, pkHalf := (pack c s).pkHalf, out := (pack c s).out } := by
  rcases pack_cases c s with ⟨-, h⟩ | ⟨-, h⟩ <;> rw [h]

@[simp] theorem pack_code (c : Code) (s : State) : (pack c s).code = s.code := by rw [pack_frame]
@[simp] theorem pack_err (c : Code) (s : State) : (pack c s).err = s.err := by rw [pack_frame]
@[simp] theorem pack_cause (c : Code) (s : State) : (pack c s).cause = s.cause := by rw [pack_frame]
@[simp] theorem pack_errCmd (c : Code) (s : State) : (pack c s).errCmd = s.errCmd := by rw [pack_frame]

/-- PACK holds a nibble exactly when none was held (R26, R141). -/
@[simp] theorem pack_pkHalf (c : Code) (s : State) : (pack c s).pkHalf = !s.pkHalf := by
  rcases pack_cases c s with ⟨hhalf, h⟩ | ⟨hhalf, h⟩ <;> simp [h, hhalf]

theorem pack_appends (c : Code) (s : State) : ∃ more, (pack c s).out = s.out ++ more ∧ more.length ≤ 1 := by
  rcases pack_cases c s with ⟨-, h⟩ | ⟨-, h⟩ <;> rw [h]
  · exact ⟨[], by simp⟩
  · exact ⟨_, rfl, le_rfl⟩

@[simp] theorem raiseError_pkHalf (e : CommandError) (w : CmdWord) (s : State) :
    (raiseError e w s).pkHalf = s.pkHalf := by rw [raiseError_eq]
@[simp] theorem raiseError_port (e : CommandError) (w : CmdWord) (s : State) : (raiseError e w s).port = s.port := by
  rw [raiseError_eq]
@[simp] theorem raiseError_out (e : CommandError) (w : CmdWord) (s : State) : (raiseError e w s).out = s.out := by
  rw [raiseError_eq]

/-- Raising an error does not read `CODE`. -/
theorem raiseError_withCode (e : CommandError) (w : CmdWord) (c : Code) (s : State) :
    raiseError e w { s with code := c } = { raiseError e w s with code := c } := by simp only [raiseError_eq]

/-! ### FLUSH and LDIDX in each of their cases -/

theorem exec_flush_of_empty {s : State} (hhalf : s.pkHalf = false) : exec .flush s = .next s := by
  simp [exec, execFlush, hhalf]

theorem exec_flush_of_held {s : State} (hhalf : s.pkHalf = true) :
    exec .flush s = .next (setPacker 0#4 false (emitByte (s.pkHold.setWidth 8) s)) := by
  simp [exec, execFlush, hhalf]

theorem exec_ldidx_of_le {k : BitVec 6} (hk : k.toNat ≤ 48) (s : State) :
    exec (.ldidx k) s = .next (setIdx k.toNat s) := if_neg (Nat.not_lt_of_le hk)

theorem exec_ldidx_of_gt {k : BitVec 6} (hk : 48 < k.toNat) (s : State) :
    exec (.ldidx k) s = .next (raiseError .operandRange (encode (.ldidx k)) s) := if_pos hk

/-! ### The step at each kind of input -/

theorem step_of_reset {s : State} {rest : List HostInput} (hport : s.port = .reset :: rest) :
    step s = .next (hardwareReset { s with port := rest }) := by simp [step, takeInput_cons hport, inputStep]

theorem step_of_rejected {s : State} {w : CmdWord} {e : CommandError} {rest : List HostInput}
    (hport : s.port = .command w :: rest) (hdecode : decode w = .rejected e) :
    step s = .next (raiseError e w { s with port := rest }) := by
  simp [step, takeInput_cons hport, inputStep, commandStep, hdecode]

theorem step_of_command {s : State} {w : CmdWord} {i : Instr} {rest : List HostInput}
    (hport : s.port = .command w :: rest) (hdecode : decode w = .command i) :
    step s = exec i { s with port := rest } := by
  simp [step, takeInput_cons hport, inputStep, commandStep, hdecode]

/-- No step stops the engine (R200, R204). -/
theorem step_answers_next (s : State) : ∃ t, step s = .next t := by
  rcases step_cases s with ⟨-, hst⟩ | ⟨rest, -, hst⟩ | ⟨w, e, rest, -, -, hst⟩ | ⟨w, i, rest, -, -, hst⟩
  · exact ⟨_, hst⟩
  · exact ⟨_, hst⟩
  · exact ⟨_, hst⟩
  · exact hst ▸ exec_answers_next i _

/-! ### The error registers (R27) -/

/-- The decoder answers LDIDX only for the operand field of a word that passed the range check (R65, R160). -/
theorem wellFormed_of_decode {w : CmdWord} {i : Instr} (h : decode w = .command i) : i.wellFormed = true := by
  cases i with
  | ldidx k =>
    obtain ⟨op, x, rfl⟩ : ∃ (op : BitVec 4) (x : BitVec 12), w = op ++ x := ⟨_, _, (word_split w).symm⟩
    obtain ⟨-, -, hrange, hoperation⟩ := (decode_append_eq_command op x _).1 h
    rw [operation_append] at hoperation
    split at hoperation <;> cases hoperation
    exact decide_eq_true (Nat.le_of_not_lt fun hk => hrange ⟨rfl, hk⟩)
  | nop | init | enc | dec | decb | flush | ldest => rfl

/-- A command the decoder can answer writes none of the error registers (R201). -/
theorem exec_keeps_error_registers {i : Instr} {s t : State} (hi : i.wellFormed = true) (h : exec i s = .next t) :
    t.err = s.err ∧ t.cause = s.cause ∧ t.errCmd = s.errCmd := by
  cases i with
  | enc x => cases h; simp
  | flush => rcases exec_flush_cases s with ⟨-, he⟩ | ⟨-, he⟩ <;> cases he.symm.trans h <;> exact ⟨rfl, rfl, rfl⟩
  | ldidx k =>
    rcases exec_ldidx_cases k s with ⟨-, he⟩ | ⟨hk, -⟩
    · cases he.symm.trans h; exact ⟨rfl, rfl, rfl⟩
    · exact absurd (of_decide_eq_true hi) (Nat.not_le_of_lt hk)
  | nop | init | dec | decb | ldest => cases h; exact ⟨rfl, rfl, rfl⟩

/-- A step from a safe state stays safe unless it takes a word the decoder rejects. -/
theorem step_keeps_safe {s t : State}
    (haccepted : ¬ ∃ w e rest, s.port = .command w :: rest ∧ decode w = .rejected e) (hs : Safe s)
    (h : step s = .next t) : Safe t := by
  rcases step_cases s with ⟨-, hst⟩ | ⟨rest, -, hst⟩ | ⟨w, e, rest, hport, hd, -⟩ | ⟨w, i, rest, -, hd, hst⟩
  · cases hst.symm.trans h; exact hs
  · cases hst.symm.trans h; exact hardwareReset_err _
  · exact absurd ⟨w, e, rest, hport, hd⟩ haccepted
  · obtain ⟨herr, -, -⟩ := exec_keeps_error_registers (wellFormed_of_decode hd) (hst.symm.trans h)
    exact herr.trans hs

/-- From a safe state a rejected word is the first error since reset, so its cause and word are recorded (R203). -/
theorem step_records_first_error {s : State} {w : CmdWord} {e : CommandError} {rest : List HostInput} (hs : Safe s)
    (hport : s.port = .command w :: rest) (hdecode : decode w = .rejected e) :
    step s = .next { s with port := rest, err := true, cause := causeOf e, errCmd := w } := by
  rw [step_of_rejected hport hdecode]
  rcases raiseError_cases e w { s with port := rest } with ⟨herr, -⟩ | ⟨-, hr⟩
  · cases hs.symm.trans herr
  · rw [hr]

/-- Settles O24, by whether the step takes a rejected word. -/
theorem errorsArePreciselyRejectedWords : Obligations.ErrorsArePreciselyRejectedWords := by
  intro s t hs h
  have recorded : ∀ w e rest, s.port = .command w :: rest → decode w = .rejected e →
      t = { s with port := rest, err := true, cause := causeOf e, errCmd := w } := fun w e rest hport hd =>
    Host.Outcome.next.inj (h.symm.trans (step_records_first_error hs hport hd))
  refine ⟨⟨fun ht => ?_, ?_⟩, fun w e rest hport hd => ?_⟩
  · exact not_not.1 fun haccepted => ht (step_keeps_safe haccepted hs h)
  · rintro ⟨w, e, rest, hport, hd⟩
    simp [recorded w e rest hport hd, Safe]
  · simp [recorded w e rest hport hd]

/-! ### The port and the channels (R37, R52) -/

theorem exec_keeps_port {i : Instr} {s t : State} (h : exec i s = .next t) : t.port = s.port := by
  have same : t = { t with port := s.port } := Host.Outcome.next.inj (h.symm.trans (exec_with_port i s.port h))
  rw [same]

/-- A command appends to the outputs: none, one, or the two samples of DECB (R50, R113). -/
theorem exec_appends {i : Instr} {s t : State} (h : exec i s = .next t) :
    ∃ more, t.out = s.out ++ more ∧ more.length ≤ 2 := by
  have unchanged (hout : t.out = s.out) : ∃ more, t.out = s.out ++ more ∧ more.length ≤ 2 := ⟨[], by simp [hout]⟩
  cases i with
  | nop | init | ldest => cases h; exact unchanged rfl
  | enc x =>
    cases h
    obtain ⟨more, hout, hlen⟩ := pack_appends (encodedCode x s) (applyCode (encodedCode x s) s)
    exact ⟨more, hout, by omega⟩
  | dec c => cases h; exact ⟨_, congrArg State.out (decodeOne_spec c s), by simp⟩
  | decb b => cases h; exact ⟨[_, _], List.append_assoc s.out [_] [_], le_rfl⟩
  | flush =>
    rcases exec_flush_cases s with ⟨-, he⟩ | ⟨-, he⟩ <;> cases he.symm.trans h
    · exact unchanged rfl
    · exact ⟨_, rfl, by simp⟩
  | ldidx k =>
    rcases exec_ldidx_cases k s with ⟨-, he⟩ | ⟨-, he⟩ <;> cases he.symm.trans h
    · exact unchanged rfl
    · exact unchanged (raiseError_out _ _ s)

/-- A step takes the first input and appends at most two outputs. -/
theorem step_takes_one_and_appends {s t : State} (h : step s = .next t) :
    t.port = s.port.tail ∧ ∃ more, t.out = s.out ++ more ∧ more.length ≤ 2 := by
  rcases step_cases s with ⟨hport, hst⟩ | ⟨rest, hport, hst⟩ | ⟨w, e, rest, hport, -, hst⟩ | ⟨w, i, rest, hport, -, hst⟩ <;>
    rw [hst] at h
  · cases h; exact ⟨by simp [hport], [], by simp⟩
  · cases h; exact ⟨by simp [hport], [], by simp⟩
  · cases h; exact ⟨by simp [hport], [], by simp⟩
  · exact ⟨by simp [exec_keeps_port h, hport], exec_appends (s := { s with port := rest }) h⟩

/-- Settles O27: each channel is the view by kind of the outputs, so what is appended to them is appended to it. -/
theorem stepTakesOneInputAndAppends : Obligations.StepTakesOneInputAndAppends := by
  intro s t h
  obtain ⟨hport, more, hout, hlen⟩ := step_takes_one_and_appends h
  exact ⟨hport, more, hout, hlen, by simp [byteOut, hout], by simp [pcmOut, hout]⟩

/-! ### `CODE` (R24) -/

/-- From states that differ in `CODE` only, a command leaves states that differ in `CODE` at most. -/
theorem exec_withCode (i : Instr) (s : State) (c : Code) :
    ∃ t d, exec i s = .next t ∧ exec i { s with code := c } = .next { t with code := d } := by
  cases i with
  | nop | ldest => exact ⟨_, c, rfl, rfl⟩
  | init | enc | dec | decb => exact ⟨_, _, rfl, rfl⟩
  | flush =>
    rcases s.pkHalf.eq_false_or_eq_true with hhalf | hhalf
    · exact ⟨_, c, exec_flush_of_held hhalf, exec_flush_of_held (s := { s with code := c }) hhalf⟩
    · exact ⟨_, c, exec_flush_of_empty hhalf, exec_flush_of_empty (s := { s with code := c }) hhalf⟩
  | ldidx k =>
    rcases Nat.lt_or_ge 48 k.toNat with hk | hk
    · exact ⟨_, c, exec_ldidx_of_gt hk s, by rw [exec_ldidx_of_gt hk, raiseError_withCode]⟩
    · exact ⟨_, c, exec_ldidx_of_le hk s, exec_ldidx_of_le hk _⟩

/-- From states that differ in `CODE` only, a step leaves states that differ in `CODE` at most. -/
theorem step_withCode (s : State) (c : Code) :
    ∃ t d, step s = .next t ∧ step { s with code := c } = .next { t with code := d } := by
  rcases step_cases s with ⟨hport, hst⟩ | ⟨rest, hport, hst⟩ | ⟨w, e, rest, hport, hd, hst⟩ | ⟨w, i, rest, hport, hd, hst⟩
  · exact ⟨s, c, hst, stepHoldsStateWhenNothingIssued { s with code := c } hport⟩
  · exact ⟨_, _, hst, step_of_reset (s := { s with code := c }) hport⟩
  · refine ⟨_, c, hst, ?_⟩
    rw [step_of_rejected (s := { s with code := c }) hport hd, ← raiseError_withCode]
  · obtain ⟨t, d, ht, hu⟩ := exec_withCode i { s with port := rest } c
    exact ⟨t, d, hst.trans ht, (step_of_command (s := { s with code := c }) hport hd).trans hu⟩

/-- Settles O39: the four writers, and the step from two states that differ in `CODE`. -/
theorem codeIsOnlyForTheHost : Obligations.CodeIsOnlyForTheHost := by
  refine ⟨fun s x => ⟨_, rfl, ?_⟩, fun s c => ⟨_, rfl, rfl⟩, fun s b => ⟨_, rfl, rfl⟩, fun s => ⟨_, rfl, rfl⟩,
    fun s c => ?_⟩
  · exact (pack_code _ _).trans (applyCode_code _ s)
  · obtain ⟨t, d, ht, hu⟩ := step_withCode s c
    exact ⟨t, _, ht, hu, rfl⟩

/-! ### `PK_HALF` (R26) -/

/-- INIT and FLUSH clear `PK_HALF`, a packed code flips it, and nothing else touches it. -/
theorem exec_pkHalf {i : Instr} {s t : State} (h : exec i s = .next t) :
    t.pkHalf = if emptiesPacker i then false else if packsCode i then !s.pkHalf else s.pkHalf := by
  cases i with
  | enc x => cases h; exact pack_pkHalf _ _
  | flush =>
    rcases exec_flush_cases s with ⟨hhalf, he⟩ | ⟨-, he⟩ <;> cases he.symm.trans h
    · exact hhalf
    · rfl
  | ldidx k =>
    rcases exec_ldidx_cases k s with ⟨-, he⟩ | ⟨-, he⟩ <;> cases he.symm.trans h
    · rfl
    · exact raiseError_pkHalf _ _ s
  | nop | init | dec | decb | ldest => cases h; rfl

/-- One command keeps `PK_HALF` the parity of the count that `packedSince` carries. -/
theorem exec_keeps_parity {i : Instr} {s t : State} {n : Nat} (hs : s.pkHalf = decide (n % 2 = 1))
    (h : exec i s = .next t) :
    t.pkHalf = decide ((if emptiesPacker i then 0 else if packsCode i then n + 1 else n) % 2 = 1) := by
  rw [exec_pkHalf h, hs]
  split
  · rfl
  · split
    · rw [← decide_not, decide_eq_decide]; omega
    · rfl

theorem execAll_keeps_parity (is : List Instr) {s t : State} {n : Nat} (hs : s.pkHalf = decide (n % 2 = 1))
    (h : execAll is s = .next t) : t.pkHalf = decide (packedSince n is % 2 = 1) := by
  induction is generalizing s n with
  | nil => cases h; exact hs
  | cons i rest ih =>
    obtain ⟨u, hu⟩ := exec_answers_next i s
    exact ih (exec_keeps_parity hs hu) ((execAll_cons hu).symm.trans h)

/-- Settles O51, by induction on the sequence of commands. -/
theorem packHalfIsParity : Obligations.PackHalfIsParity := by
  refine ⟨fun is s n hs => ?_, hardwareReset_pkHalf⟩
  obtain ⟨t, ht⟩ := execAll_answers_next is s
  exact ⟨t, ht, execAll_keeps_parity is hs ht⟩

/-! ### STATUS and ERRCMD (R30, R31) -/

/-- Six bits are enough for a step index (R23). -/
theorem toNat_idxField (n : StepIndex) : (BitVec.ofNat 6 n.val).toNat = n.val :=
  Nat.mod_eq_of_lt (n.isLt.trans (by decide))

/-- STATUS as the sum of its fields, each shifted to its place (R30). -/
theorem statusWord_toNat (s : State) :
    (statusWord s).toNat = s.est.toNat ||| s.idx.val <<< 12 ||| s.code.toNat <<< 18 ||| s.pkHold.toNat <<< 22 |||
      s.pkHalf.toNat <<< 26 ||| s.err.toNat <<< 27 ||| s.cause.value.toNat <<< 28 := by
  unfold statusWord
  iterate 6 rw [BitVec.toNat_append]
  simp only [toNat_idxField, BitVec.toNat_ofBool, Nat.shiftLeft_or_distrib, ← Nat.shiftLeft_add, Nat.reduceAdd,
    Nat.or_comm, Nat.or_assoc]

/-- Settles O57: each field is reached by passing over the fields below it. -/
theorem statusWordLayout : Obligations.StatusWordLayout := by
  intro s
  refine ⟨?est, ?idx, ?code, ?pkHold, ?pkHalf, ?err, ?cause, statusWord_toNat s, rfl⟩ <;> unfold statusWord
  case est => exact BitVec.extractLsb'_append_eq_right
  case idx =>
    rw [BitVec.extractLsb'_append_eq_of_le (by decide), BitVec.extractLsb'_append_eq_right, toNat_idxField]
  case code =>
    iterate 2 rw [BitVec.extractLsb'_append_eq_of_le (by decide)]
    exact BitVec.extractLsb'_append_eq_right
  case pkHold =>
    iterate 3 rw [BitVec.extractLsb'_append_eq_of_le (by decide)]
    exact BitVec.extractLsb'_append_eq_right
  case pkHalf =>
    iterate 5 rw [BitVec.getLsbD_append]
    simp
  case err =>
    iterate 6 rw [BitVec.getLsbD_append]
    simp
  case cause =>
    iterate 6 rw [BitVec.extractLsb'_append_eq_of_le (by decide)]
    rw [BitVec.extractLsb'_eq_self]
    cases s.cause <;> rfl

/-! ### Several engines (R38, R211) -/

/-- Settles O58: the step of engine `k` replaces the state at place `k` of the list. -/
theorem enginesAreIndependent : Obligations.EnginesAreIndependent := by
  intro sys k
  cases hk : sys[k]? with
  | none => exact ⟨sys, by simp [systemStep, hk], rfl, fun _ _ => rfl, nofun⟩
  | some s =>
    obtain ⟨t, ht⟩ := step_answers_next s
    refine ⟨sys.set k t, by simp [systemStep, hk, ht], List.length_set, fun j hj => List.getElem?_set_ne hj.symm, ?_⟩
    rintro _ ⟨rfl⟩
    obtain ⟨hlt, -⟩ := List.getElem?_eq_some_iff.1 hk
    exact ⟨t, ht, List.getElem?_set_self hlt⟩

/-! ### Reset (R34, R220) -/

/-- Settles O14: hardware reset writes every register to its value of R34. -/
theorem stepAppliesHardwareReset : Obligations.StepAppliesHardwareReset :=
  fun _ _ hport => step_of_reset hport

/-- Settles O16, by evaluating the reset state and its STATUS word. -/
theorem resetRegistersAreZero : Obligations.ResetRegistersAreZero :=
  ⟨rfl, rfl, rfl, rfl, rfl, rfl, rfl, rfl, by decide, rfl⟩

end Sys2Proof.Machine
end

section
/-! PROOFS of 20_memory.md. Nothing writes the step table (R42); a word that decodes to a command runs it, and the words of a
sequence of commands run in issue order, each to completion (R52). -/

namespace Sys2Proof.Machine

/-! ### The step table is read-only (R42) -/

@[simp] theorem pack_stepTable (c : Code) (s : State) : (pack c s).stepTable = s.stepTable := by rw [pack_frame]
@[simp] theorem raiseError_stepTable (e : CommandError) (w : CmdWord) (s : State) :
    (raiseError e w s).stepTable = s.stepTable := by rw [raiseError_eq]

theorem exec_keeps_stepTable {i : Instr} {s t : State} (h : exec i s = .next t) : t.stepTable = s.stepTable := by
  cases i with
  | enc x => cases h; exact pack_stepTable _ _
  | flush => rcases exec_flush_cases s with ⟨-, he⟩ | ⟨-, he⟩ <;> cases he.symm.trans h <;> rfl
  | ldidx k =>
    rcases exec_ldidx_cases k s with ⟨-, he⟩ | ⟨-, he⟩ <;> cases he.symm.trans h
    · rfl
    · exact raiseError_stepTable _ _ s
  | nop | init | dec | decb | ldest => cases h; rfl

/-- Settles O26, by the four things a step can be: idle, a hardware reset, a rejected word or a command. -/
theorem stepNeverWritesStepTable : Obligations.StepNeverWritesStepTable := by
  intro s t h
  rcases step_cases s with ⟨-, hst⟩ | ⟨rest, -, hst⟩ | ⟨w, e, rest, -, -, hst⟩ | ⟨w, i, rest, -, -, hst⟩ <;> rw [hst] at h
  · cases h; rfl
  · cases h; exact hardwareReset_stepTable _
  · cases h; exact raiseError_stepTable e w _
  · exact exec_keeps_stepTable (s := { s with port := rest }) h

/-! ### The word of a well-formed command decodes to it (R61, R62) -/

/-- A word of an opcode without reserved bits and without a range check is the command the opcode selects (R62, R65). -/
theorem decode_append_of_unchecked {op : BitVec 4} (hop : op.toNat < 8) (hmask : reservedMask op = 0#12) (h7 : op ≠ 0x7#4)
    (x : BitVec 12) : decode (op ++ x : CmdWord) = operation (op ++ x) := by
  rw [decode_append, if_neg (Nat.not_le_of_lt hop), if_neg (by simp [hmask]), if_neg fun h => h7 h.1]

/-- ENC and LDEST take any operand of 12 bits; the other operands are few enough to be decoded one by one. -/
theorem decode_encode {i : Instr} (hi : i.wellFormed = true) : decode (encode i) = .command i := by
  cases i with
  | nop | init | flush => decide
  | enc x => exact (decode_append_of_unchecked (by decide) rfl (by decide) x).trans (operation_append 0x2#4 x)
  | ldest x => exact (decode_append_of_unchecked (by decide) rfl (by decide) x).trans (operation_append 0x6#4 x)
  | dec c => revert c; decide
  | decb b => revert b; decide
  | ldidx k => revert k; decide

/-! ### Issue order (R52) -/

/-- Settles O12, by the step at a word that the decoder accepts. -/
theorem stepRunsDecodedCommand : Obligations.StepRunsDecodedCommand :=
  fun _ _ _ _ hport hdecode => step_of_command hport hdecode

/-- A run whose first step goes on to `t` is the run of one step fewer from `t`. -/
theorem run_succ_of_step {s t : State} (h : step s = .next t) (k : Nat) :
    Host.Core.run core (k + 1) s = Host.Core.run core k t := by
  have hcore : core.step s = .next t := h
  simp only [Host.Core.run, hcore]

theorem execAll_keeps_port (is : List Instr) {s t : State} (h : execAll is s = .next t) : t.port = s.port := by
  induction is generalizing s with
  | nil => cases h; rfl
  | cons i rest ih =>
    obtain ⟨u, hu⟩ := exec_answers_next i s
    exact (ih ((execAll_cons hu).symm.trans h)).trans (exec_keeps_port hu)

/-- By induction on the commands: the first step takes the first word and executes its command, which touches no port, so the
words after it are at the head of the port for the steps that follow. -/
theorem run_issued_eq_execAll (is : List Instr) (s : State) (rest : List HostInput) (hwf : ∀ i ∈ is, i.wellFormed = true)
    (hport : s.port = is.map (fun i => .command (encode i)) ++ rest) :
    Host.Core.run core is.length s = execAll is { s with port := rest } := by
  induction is generalizing s with
  | nil => rw [← show s.port = rest from hport]; rfl
  | cons i more ih =>
    obtain ⟨hi, hmore⟩ := List.forall_mem_cons.1 hwf
    obtain ⟨t, ht⟩ := exec_answers_next i s
    have hstep : step s = .next { t with port := more.map (fun i => .command (encode i)) ++ rest } :=
      (step_of_command hport (decode_encode hi)).trans (exec_with_port i _ ht)
    have hexec : exec i { s with port := rest } = .next { t with port := rest } := exec_with_port i rest ht
    rw [List.length_cons, run_succ_of_step hstep, execAll_cons hexec]
    exact ih _ hmore rfl

/-- Settles O28: the run is the execution of the commands in order, which completes and leaves the port as it is. -/
theorem commandsRunInIssueOrder : Obligations.CommandsRunInIssueOrder := by
  intro is s rest hwf hport
  obtain ⟨t, ht⟩ := execAll_answers_next is { s with port := rest }
  exact ⟨run_issued_eq_execAll is s rest hwf hport, t, ht, execAll_keeps_port is ht⟩

end Sys2Proof.Machine
end

section
/-! PROOFS of 30_encoding.md. The decoder on the words of one row of the opcode map (R61): what it answers, by the row's reserved
bits and LDIDX's range check (R160). From it come the match and mask of R61, the operand forms of R62, the rejections of R63 to
R65 and the count of R66; after them the assembler of R67 and R68. -/

namespace Sys2Proof.Machine

open Laws.EncodedOpcode (opOf)

/-! ### A word as a number -/

/-- A word split in two as a number: the high part stands above the bits of the low part. -/
theorem toNat_append_eq_add {m n : Nat} (a : BitVec m) (b : BitVec n) : (a ++ b).toNat = a.toNat * 2 ^ n + b.toNat := by
  rw [BitVec.toNat_append, ← Nat.shiftLeft_add_eq_or_of_lt b.isLt, Nat.shiftLeft_eq]

/-- Masking off all but the low `n` bits leaves zero exactly for the numbers below `2 ^ n`. -/
theorem and_highMask_eq_zero_iff {m n : Nat} (x : BitVec (m + n)) :
    x &&& (BitVec.allOnes m ++ 0#n) = 0#m ++ 0#n ↔ x.toNat < 2 ^ n := by
  obtain ⟨a, b, rfl⟩ : ∃ (a : BitVec m) (b : BitVec n), x = a ++ b :=
    ⟨x.extractLsb' n m, x.extractLsb' 0 n, by simp⟩
  have hdiv : (a.toNat * 2 ^ n + b.toNat) / 2 ^ n = a.toNat := by
    rw [Nat.mul_comm, Nat.mul_add_div (Nat.two_pow_pos n), Nat.div_eq_of_lt b.isLt, Nat.add_zero]
  rw [BitVec.and_append, BitVec.and_allOnes, BitVec.and_zero, BitVec.append_left_inj, toNat_append_eq_add,
    ← Nat.div_eq_zero_iff_lt (Nat.two_pow_pos n), hdiv, ← BitVec.toNat_inj, BitVec.toNat_zero]

/-! ### The rows of the opcode map (R61, R62) -/

/-- How many bits of the operand field a row's format reads (R62). -/
def operandBits : Mnemonic → Nat
  | .nop | .init | .flush => 0
  | .enc | .ldest => 12
  | .dec => 4
  | .decb => 8
  | .ldidx => 6

/-- The command of a row whose format reads the operand field `x` (R62). -/
def commandOf (x : BitVec 12) : Mnemonic → Instr
  | .nop => .nop
  | .init => .init
  | .enc => .enc x
  | .dec => .dec (x.extractLsb' 0 4)
  | .decb => .decb (x.extractLsb' 0 8)
  | .flush => .flush
  | .ldest => .ldest x
  | .ldidx => .ldidx (x.extractLsb' 0 6)

@[simp] theorem commandOf_mnemonic (x : BitVec 12) (m : Mnemonic) : (commandOf x m).mnemonic = m := by cases m <;> rfl

/-- A row's reserved bits are zero exactly when the operand field is a number of the bits its format reads. -/
theorem reserved_eq_zero_iff (m : Mnemonic) (x : BitVec 12) :
    x &&& reservedMask (opOf m) = 0#12 ↔ x.toNat < 2 ^ operandBits m := by
  cases m with
  | nop | init | flush => exact and_highMask_eq_zero_iff (m := 12) (n := 0) x
  | enc | ldest => exact and_highMask_eq_zero_iff (m := 0) (n := 12) x
  | dec => exact and_highMask_eq_zero_iff (m := 8) (n := 4) x
  | decb => exact and_highMask_eq_zero_iff (m := 4) (n := 8) x
  | ldidx => exact and_highMask_eq_zero_iff (m := 6) (n := 6) x

/-- A word of a row with zero reserved bits is the word of the command its operand field gives. -/
theorem encode_commandOf {m : Mnemonic} {x : BitVec 12} (hx : x &&& reservedMask (opOf m) = 0#12) :
    encode (commandOf x m) = opOf m ++ x := by
  rw [reserved_eq_zero_iff] at hx
  have hlow : (x.extractLsb' 0 (operandBits m)).toNat = x.toNat := by
    rw [BitVec.extractLsb'_toNat, Nat.shiftRight_zero, Nat.mod_eq_of_lt hx]
  cases m with
  | nop | init | flush =>
    obtain rfl : x = 0#12 := BitVec.eq_of_toNat_eq (Nat.lt_one_iff.1 hx)
    rfl
  | enc | ldest => rfl
  | dec | decb | ldidx =>
    rw [operandBits] at hlow
    apply BitVec.eq_of_toNat_eq
    rw [commandOf, encode, toNat_append_eq_add, toNat_append_eq_add, hlow]
    rfl

/-- The decoder on a row's words: first the reserved bits, then LDIDX's range, then the row's command (R160). -/
theorem decode_opOf_append (m : Mnemonic) (x : BitVec 12) :
    decode (opOf m ++ x : CmdWord) =
      if x &&& reservedMask (opOf m) ≠ 0#12 then .rejected .reservedBits
      else if m = .ldidx ∧ 48 < (x.extractLsb' 0 6).toNat then .rejected .operandRange
      else .command (commandOf x m) := by
  have hop : ¬ 8 ≤ (opOf m).toNat := by cases m <;> decide
  have hldidx : opOf m = 0x7#4 ↔ m = .ldidx := by cases m <;> decide
  have hoperation : operation (opOf m ++ x : CmdWord) = .command (commandOf x m) := by
    rw [operation_append]; cases m <;> rfl
  rw [decode_append, if_neg hop, hoperation]
  simp only [hldidx]

/-- An opcode of 8 or more is rejected before anything else is looked at (R63, R160). -/
theorem decode_of_reserved_opcode {w : CmdWord} (h : 8 ≤ (opcodeOf w).toNat) : decode w = .rejected .illegalOpcode :=
  if_pos h

/-- An opcode is reserved or is a row's. -/
theorem reserved_or_opOf (op : BitVec 4) : 8 ≤ op.toNat ∨ ∃ m, op = opOf m :=
  opcode_cases (P := fun op => 8 ≤ op.toNat ∨ ∃ m, op = opOf m) (.inr ⟨.nop, rfl⟩) (.inr ⟨.init, rfl⟩) (.inr ⟨.enc, rfl⟩)
    (.inr ⟨.dec, rfl⟩) (.inr ⟨.decb, rfl⟩) (.inr ⟨.flush, rfl⟩) (.inr ⟨.ldest, rfl⟩) (.inr ⟨.ldidx, rfl⟩)
    (fun _ h => .inl h) op

/-- Everything the decoder can answer: a reserved opcode, or a row's reserved bits, range or command (R160). -/
theorem decode_append_cases (op : BitVec 4) (x : BitVec 12) :
    (8 ≤ op.toNat ∧ decode (op ++ x : CmdWord) = .rejected .illegalOpcode) ∨
    ∃ m, op = opOf m ∧
      ((x &&& reservedMask op ≠ 0#12 ∧ decode (op ++ x : CmdWord) = .rejected .reservedBits) ∨
       (x &&& reservedMask op = 0#12 ∧ m = .ldidx ∧ 48 < (x.extractLsb' 0 6).toNat ∧
         decode (op ++ x : CmdWord) = .rejected .operandRange) ∨
       (x &&& reservedMask op = 0#12 ∧ (m = .ldidx → (x.extractLsb' 0 6).toNat ≤ 48) ∧
         decode (op ++ x : CmdWord) = .command (commandOf x m))) := by
  rcases reserved_or_opOf op with hop | ⟨m, rfl⟩
  · exact .inl ⟨hop, decode_of_reserved_opcode (by rwa [opcodeOf_append])⟩
  · refine .inr ⟨m, rfl, ?_⟩
    rw [decode_opOf_append]
    split
    next hx => exact .inl ⟨hx, rfl⟩
    next hx =>
      split
      next hk => exact .inr (.inl ⟨not_not.1 hx, hk.1, hk.2, rfl⟩)
      next hk => exact .inr (.inr ⟨not_not.1 hx, fun hm => Nat.le_of_not_lt fun h => hk ⟨hm, h⟩, rfl⟩)

/-- The words of a row that are commands: zero reserved bits and, for LDIDX, an operand of at most 48 (R61). -/
theorem exists_command_append_iff (m : Mnemonic) (op : BitVec 4) (x : BitVec 12) :
    (∃ i, decode (op ++ x : CmdWord) = .command i ∧ i.mnemonic = m) ↔
      op = opOf m ∧ x &&& reservedMask (opOf m) = 0#12 ∧ (m = .ldidx → (x.extractLsb' 0 6).toNat ≤ 48) := by
  constructor
  · rintro ⟨i, h, rfl⟩
    rcases decode_append_cases op x with ⟨-, hd⟩ | ⟨m, rfl, ⟨-, hd⟩ | ⟨-, -, -, hd⟩ | ⟨hx, hk, hd⟩⟩ <;> cases hd.symm.trans h
    rw [commandOf_mnemonic]
    exact ⟨rfl, hx, hk⟩
  · rintro ⟨rfl, hx, hk⟩
    refine ⟨commandOf x m, ?_, commandOf_mnemonic x m⟩
    rw [decode_opOf_append, if_neg (not_not.2 hx), if_neg fun h => Nat.not_lt_of_le (hk h.1) h.2]

/-- The words rejected with cause 1 are those of the reserved opcodes alone (R63). -/
theorem decode_append_eq_illegalOpcode_iff (op : BitVec 4) (x : BitVec 12) :
    decode (op ++ x : CmdWord) = .rejected .illegalOpcode ↔ 8 ≤ op.toNat := by
  refine ⟨fun h => ?_, fun hop => decode_of_reserved_opcode (by rwa [opcodeOf_append])⟩
  rcases decode_append_cases op x with ⟨hop, -⟩ | ⟨m, rfl, ⟨-, hd⟩ | ⟨-, -, -, hd⟩ | ⟨-, -, hd⟩⟩
  · exact hop
  all_goals cases hd.symm.trans h

/-- The words rejected with cause 3 are LDIDX's with zero reserved bits and an operand above 48 (R65). -/
theorem decode_append_eq_operandRange_iff (op : BitVec 4) (x : BitVec 12) :
    decode (op ++ x : CmdWord) = .rejected .operandRange ↔
      op = opOf .ldidx ∧ x &&& reservedMask (opOf .ldidx) = 0#12 ∧ 48 < (x.extractLsb' 0 6).toNat := by
  constructor
  · intro h
    rcases decode_append_cases op x with ⟨-, hd⟩ | ⟨m, rfl, ⟨-, hd⟩ | ⟨hx, rfl, hk, -⟩ | ⟨-, -, hd⟩⟩
    case inr.inr.inl => exact ⟨rfl, hx, hk⟩
    all_goals cases hd.symm.trans h
  · rintro ⟨rfl, hx, hk⟩
    rw [decode_opOf_append, if_neg (not_not.2 hx), if_pos ⟨rfl, hk⟩]

/-! ### Decode and encode (R60 to R62) -/

/-- Settles O1, by the words of each form of command. -/
theorem decodeInvertsEncode : Obligations.DecodeInvertsEncode := fun _ hi => decode_encode hi

/-- An accepted word is the word of the command it gives. -/
theorem encode_of_decode {w : CmdWord} {i : Instr} (h : decode w = .command i) : encode i = w := by
  revert h
  refine forall_word_of_split (P := fun w => decode w = .command i → encode i = w) (fun op x h => ?_) w
  rcases decode_append_cases op x with ⟨-, hd⟩ | ⟨m, rfl, ⟨-, hd⟩ | ⟨-, -, -, hd⟩ | ⟨hx, -, hd⟩⟩ <;> cases hd.symm.trans h
  exact encode_commandOf hx

/-- Settles O2: only a row's word with zero reserved bits is accepted, and it is its command's. -/
theorem encodeInvertsDecode : Obligations.EncodeInvertsDecode :=
  fun _ _ h => ⟨wellFormed_of_decode h, encode_of_decode h⟩

/-- A row's match and mask compare the opcode with the row's and the reserved bits with zero (R61). -/
theorem match_mask_append_iff (m : Mnemonic) (op : BitVec 4) (x : BitVec 12) :
    (op ++ x : CmdWord) &&& m.maskBits = m.matchBits ↔ op = opOf m ∧ x &&& reservedMask (opOf m) = 0#12 := by
  have hmask : m.maskBits = 0xF#4 ++ reservedMask (opOf m) := by cases m <;> decide
  have hmatch : m.matchBits = opOf m ++ 0#12 := by cases m <;> decide
  rw [hmask, hmatch, BitVec.and_append, show op &&& 0xF#4 = op from BitVec.and_allOnes]
  refine ⟨fun h => ⟨?_, ?_⟩, fun ⟨hop, hx⟩ => by rw [hop, hx]⟩
  · simpa using congrArg opcodeOf h
  · simpa using congrArg operandOf h

/-- Settles O3, by the opcode and the operand field of the word. -/
theorem opcodeMapByMatchAndMask : Obligations.OpcodeMapByMatchAndMask := by
  have row (m : Mnemonic) (w : CmdWord) : (∃ i, decode w = .command i ∧ i.mnemonic = m) ↔
      w &&& m.maskBits = m.matchBits ∧ (m = .ldidx → (w.extractLsb' 0 6).toNat ≤ 48) := by
    revert w
    refine forall_word_of_split fun op x => ?_
    rw [exists_command_append_iff, match_mask_append_iff, extract_append (by decide), and_assoc]
  refine ⟨?_, fun w => decode_of_reserved_opcode⟩
  iterate 8 rw [List.forall_mem_cons]
  exact ⟨row .nop, row .init, row .enc, row .dec, row .decb, row .flush, row .ldest, row .ldidx, nofun⟩

/-- Settles O4: an accepted word is the word of its command, in which each field stands where the format puts it. -/
theorem operandsFromTheirBits : Obligations.OperandsFromTheirBits := by
  refine ⟨fun w i h => ?_, fun x => ⟨decode_encode (i := .enc x) rfl, decode_encode (i := .ldest x) rfl⟩, fun x => ?_⟩
  · obtain ⟨hwf, rfl⟩ := encodeInvertsDecode w i h
    cases i with
    | nop | init | flush => decide
    | enc x | ldest x => exact BitVec.extractLsb'_append_eq_right.symm
    | dec c => exact ⟨BitVec.extractLsb'_append_eq_right.symm, BitVec.extractLsb'_append_eq_of_le (by decide)⟩
    | decb b =>
      exact ⟨BitVec.extractLsb'_append_eq_right.symm, BitVec.extractLsb'_append_eq_of_le (by decide),
        (BitVec.extractLsb'_append_eq_of_add_le (by decide)).symm, (BitVec.extractLsb'_append_eq_of_add_le (by decide)).symm⟩
    | ldidx k =>
      exact ⟨BitVec.extractLsb'_append_eq_right.symm, BitVec.extractLsb'_append_eq_of_le (by decide), of_decide_eq_true hwf⟩
  · rw [sext12, BitVec.toInt_eq_toNat_cond]
    split <;> split <;> omega

/-! ### Rejected words (R63 to R65) -/

/-- The step at a rejected word takes it and records it when no error stood before; nothing else changes (R203). -/
theorem step_records_rejected {s : State} {w : CmdWord} {e : CommandError} {rest : List HostInput}
    (hport : s.port = .command w :: rest) (hdecode : decode w = .rejected e) :
    step s = .next { s with
      port := rest, err := true,
      cause := if s.err then s.cause else causeOf e,
      errCmd := if s.err then s.errCmd else w } := by
  rw [step_of_rejected hport hdecode, raiseError_eq]

/-- Settles O5, by the step at a rejected word. -/
theorem reservedOpcodeRejected : Obligations.ReservedOpcodeRejected :=
  fun _ _ _ hport hop => step_records_rejected hport (decode_of_reserved_opcode hop)

/-- Settles O6: the reserved bits are the first thing the decoder looks at in a row's word. -/
theorem reservedBitsRejected : Obligations.ReservedBitsRejected := by
  have row (m : Mnemonic) (s : State) (x : BitVec 12) (rest : List HostInput)
      (hport : s.port = .command (opOf m ++ x) :: rest) (hx : x &&& reservedMask (opOf m) ≠ 0#12) :=
    step_records_rejected hport ((decode_opOf_append m x).trans (if_pos hx))
  refine ⟨?_, by decide⟩
  simp only [List.forall_mem_cons]
  exact ⟨row .nop, row .init, row .dec, row .decb, row .flush, row .ldidx, nofun⟩

/-- The word of an LDIDX above 48 has zero reserved bits and fails the range check (R65). -/
theorem decode_encode_ldidx_of_gt {k : BitVec 6} (hk : 48 < k.toNat) :
    decode (encode (.ldidx k)) = .rejected .operandRange := by
  obtain ⟨hop, hx⟩ := Laws.EncodedOpcode.ldidx k
  have hoperand : (operandOf (encode (.ldidx k))).extractLsb' 0 6 = k := by
    rw [← extract_append (by decide) (opcodeOf _), word_split]
    exact BitVec.extractLsb'_append_eq_right
  rw [← word_split (encode _), decode_append_eq_operandRange_iff, hoperand]
  exact ⟨hop, hx, hk⟩

/-- Settles O7: of a row's words the range check rejects LDIDX's alone, and every other operand has its command. -/
theorem indexOperandRangeRejected : Obligations.IndexOperandRangeRejected := by
  refine ⟨fun s k rest hport hk => step_records_rejected (e := .operandRange) hport (decode_encode_ldidx_of_gt hk), ?opcode,
    fun x => ⟨decode_encode (i := .enc x) rfl, decode_encode (i := .ldest x) rfl⟩,
    fun c => decode_encode (i := .dec c) rfl, fun b => decode_encode (i := .decb b) rfl⟩
  refine forall_word_of_split fun op x h => ?_
  obtain ⟨hop, -, -⟩ := (decode_append_eq_operandRange_iff op x).1 h
  exact (opcodeOf_append op x).trans hop

/-! ### How many words are what (R66) -/

/-- How many words are commands of a row (R66). -/
def wordCount : Mnemonic → Nat
  | .nop | .init | .flush => 1
  | .enc | .ldest => 4096
  | .dec => 16
  | .decb => 256
  | .ldidx => 49

/-- The 65536 command words in the order of their numbers. -/
def allWords : List CmdWord := (List.range 65536).map (BitVec.ofNat 16)

/-- Whether a word is a command of a row. -/
def isCommand (m : Mnemonic) (w : CmdWord) : Bool :=
  match decode w with
  | .command i => decide (i.mnemonic = m)
  | .rejected _ => false

/-- Whether a word is rejected with an error. -/
def isRejected (e : CommandError) (w : CmdWord) : Bool := decide (decode w = .rejected e)

theorem isCommand_iff (m : Mnemonic) (w : CmdWord) : isCommand m w = true ↔ ∃ i, decode w = .command i ∧ i.mnemonic = m := by
  unfold isCommand
  cases decode w <;> simp

/-- The words that are commands of a row are the first `wordCount` ones from its match on. -/
theorem isCommand_iff_interval (m : Mnemonic) (w : CmdWord) :
    isCommand m w = true ↔ m.matchBits.toNat ≤ w.toNat ∧ w.toNat < m.matchBits.toNat + wordCount m := by
  have hoperand (x : BitVec 12) : (x.toNat < 2 ^ operandBits m ∧ (m = .ldidx → (x.extractLsb' 0 6).toNat ≤ 48)) ↔
      x.toNat < wordCount m := by
    cases m with
    | ldidx =>
      simp only [operandBits, wordCount, BitVec.extractLsb'_toNat, Nat.shiftRight_zero, true_implies]
      omega
    | nop | init | enc | dec | decb | flush | ldest => simp [operandBits, wordCount]
  have hmatch : m.matchBits.toNat = (opOf m).toNat * 4096 := by cases m <;> rfl
  have hcount : wordCount m ≤ 4096 := by cases m <;> decide
  revert w
  refine forall_word_of_split fun op x => ?_
  rw [isCommand_iff, exists_command_append_iff, reserved_eq_zero_iff, hoperand, ← BitVec.toNat_inj, hmatch,
    toNat_append_eq_add]
  omega

theorem isRejected_illegalOpcode_iff_interval (w : CmdWord) :
    isRejected .illegalOpcode w = true ↔ 0x8000 ≤ w.toNat ∧ w.toNat < 0x8000 + 32768 := by
  revert w
  refine forall_word_of_split fun op x => ?_
  rw [isRejected, decide_eq_true_iff, decode_append_eq_illegalOpcode_iff, toNat_append_eq_add]
  omega

theorem isRejected_operandRange_iff_interval (w : CmdWord) :
    isRejected .operandRange w = true ↔ 0x7031 ≤ w.toNat ∧ w.toNat < 0x7031 + 15 := by
  revert w
  refine forall_word_of_split fun op x => ?_
  rw [isRejected, decide_eq_true_iff, decode_append_eq_operandRange_iff, reserved_eq_zero_iff, ← BitVec.toNat_inj,
    toNat_append_eq_add]
  simp only [operandBits, opOf, BitVec.extractLsb'_toNat, BitVec.toNat_ofNat]
  omega

/-- How many numbers below `n` are in an interval. -/
theorem countP_range_interval (a b n : Nat) :
    (List.range n).countP (fun v => decide (a ≤ v ∧ v < b)) = min b n - a := by
  induction n with
  | zero => simp
  | succ n ih =>
    rw [List.range_succ, List.countP_append, ih, List.countP_singleton]
    simp only [decide_eq_true_iff]
    split <;> omega

/-- A property of words that holds of an interval of `k` numbers holds of `k` words. -/
theorem countP_allWords {p : CmdWord → Bool} {a k : Nat} (hle : a + k ≤ 65536)
    (hp : ∀ w, p w = true ↔ a ≤ w.toNat ∧ w.toNat < a + k) : allWords.countP p = k := by
  have hk : min (a + k) 65536 - a = k := by omega
  rw [allWords, List.countP_map, ← hk, ← countP_range_interval]
  refine List.countP_congr fun v hv => ?_
  have hv' : (BitVec.ofNat 16 v).toNat = v := Nat.mod_eq_of_lt (List.mem_range.1 hv)
  simp only [Function.comp_apply, hp, hv', decide_eq_true_iff]

/-- The rows of the opcode map (R61). -/
def allMnemonics : List Mnemonic := [.nop, .init, .enc, .dec, .decb, .flush, .ldest, .ldidx]

/-- The command errors (R201). -/
def allErrors : List CommandError := [.illegalOpcode, .reservedBits, .operandRange]

/-- A word is a command of one row or rejected with one error. -/
theorem sum_kinds_eq_one (w : CmdWord) :
    (allMnemonics.map fun m => if isCommand m w then 1 else 0).sum +
      (allErrors.map fun e => if isRejected e w then 1 else 0).sum = 1 := by
  unfold isCommand isRejected
  rcases decode w with i | e
  · cases i <;> rfl
  · cases e <;> rfl

/-- The counts of the rows and of the errors add up to all the words. -/
theorem sum_countP_kinds (words : List CmdWord) :
    (allMnemonics.map fun m => words.countP (isCommand m)).sum + (allErrors.map fun e => words.countP (isRejected e)).sum =
      words.length := by
  induction words with
  | nil => rfl
  | cons w rest ih =>
    have hw := sum_kinds_eq_one w
    simp only [List.countP_cons, List.sum_map_add, List.length_cons]
    omega

/-- Cause 2 has the words that are left by the commands and the other two causes. -/
theorem countP_reservedBits_eq_rest (words : List CmdWord) :
    words.countP (isRejected .reservedBits) = words.length - (allMnemonics.map fun m => words.countP (isCommand m)).sum -
      words.countP (isRejected .illegalOpcode) - words.countP (isRejected .operandRange) := by
  have hall := sum_countP_kinds words
  simp only [allErrors, List.map_cons, List.map_nil, List.sum_cons, List.sum_nil] at hall
  omega

theorem countP_isCommand (m : Mnemonic) : allWords.countP (isCommand m) = wordCount m :=
  countP_allWords (by cases m <;> decide) (isCommand_iff_interval m)

theorem countP_illegalOpcode : allWords.countP (isRejected .illegalOpcode) = 32768 :=
  countP_allWords (by decide) isRejected_illegalOpcode_iff_interval

theorem countP_operandRange : allWords.countP (isRejected .operandRange) = 15 :=
  countP_allWords (by decide) isRejected_operandRange_iff_interval

theorem countP_reservedBits : allWords.countP (isRejected .reservedBits) = 24237 := by
  have hlength : allWords.length = 65536 := by rw [allWords, List.length_map, List.length_range]
  rw [countP_reservedBits_eq_rest, hlength, countP_illegalOpcode, countP_operandRange]
  simp only [countP_isCommand]
  rfl

/-- Settles O8: the commands of a row and the words of causes 1 and 3 are intervals, and cause 2 has the rest. -/
theorem wordsPartitioned : Obligations.WordsPartitioned := by
  unfold Obligations.WordsPartitioned
  intro words commands rejects
  have hcommands : ∀ m, commands m = wordCount m := countP_isCommand
  refine ⟨hcommands .nop, hcommands .init, hcommands .enc, hcommands .dec, hcommands .decb, hcommands .flush,
    hcommands .ldest, hcommands .ldidx, ?_, countP_illegalOpcode, countP_reservedBits, countP_operandRange⟩
  simp only [hcommands, wordCount]

/-- Settles O9, by decoding each word. -/
theorem exampleWordsDecode : Obligations.ExampleWordsDecode := by
  unfold Obligations.ExampleWordsDecode
  decide

/-! ### The assembler (R67, R68) -/

/-- A written index is at most 48 (R67). -/
theorem indexLiteral_le {l : Literal} {k : BitVec 6} (h : indexLiteral l = some k) : k.toNat ≤ 48 := by
  cases l with
  | hex v => cases h
  | decimal v =>
    simp only [indexLiteral, Option.ite_none_right_eq_some, Option.some.injEq] at h
    obtain ⟨⟨h0, h48⟩, rfl⟩ := h
    simp only [BitVec.toNat_ofNat]
    omega

/-- The assembler gives well-formed commands alone: it checks the one operand that can be out of range, LDIDX's (R67). -/
theorem assembleCommand_wellFormed {m : Mnemonic} {operand : Option Literal} {i : Instr}
    (h : assembleCommand m operand = some i) : i.wellFormed = true := by
  cases i with
  | nop | init | enc | dec | decb | flush | ldest => rfl
  | ldidx k =>
    unfold assembleCommand at h
    split at h <;>
      simp only [Option.map_eq_some_iff, Option.some.injEq, reduceCtorEq, Instr.ldidx.injEq, exists_eq_right, and_false,
        exists_false] at h
    exact decide_eq_true (indexLiteral_le h)

/-- Settles O59: every word of such a line is the word of a well-formed command. -/
theorem assembledCommandsAreAccepted : Obligations.AssembledCommandsAreAccepted := by
  intro l ws h hword w hw
  have accepted {m : Mnemonic} {operand : Option Literal} {i : Instr} (hi : assembleCommand m operand = some i) :
      ∃ i', decode (encode i) = .command i' := ⟨i, decode_encode (assembleCommand_wellFormed hi)⟩
  cases l with
  | blank => cases h; cases hw
  | word v => exact absurd rfl (hword v)
  | command m operand =>
    obtain ⟨i, hi, rfl⟩ := Option.map_eq_some_iff.1 h
    obtain rfl := List.mem_singleton.1 hw
    exact accepted hi
  | endstream =>
    cases h
    obtain rfl := List.mem_singleton.1 hw
    exact accepted (m := .flush) (operand := none) rfl
  | ldstate e n =>
    simp only [assembleLine] at h
    split at h <;> cases h
    next i j hi hj =>
      rcases List.mem_pair.1 hw with rfl | rfl
      · exact accepted hi
      · exact accepted hj

/-- Settles O60: each operand in range is read back from the register it is loaded into. -/
theorem pseudoInstructionsExpand : Obligations.PseudoInstructionsExpand := by
  refine ⟨fun e n he1 he2 hn1 hn2 => ?_, rfl, rfl⟩
  have hest : assembleCommand .ldest (some (.decimal e)) = some (.ldest (narrowEst e)) := by
    simp [assembleCommand, sampleLiteral, he1, he2, narrowEst]
  have hidx : assembleCommand .ldidx (some (.decimal n)) = some (.ldidx (BitVec.ofNat 6 n.toNat)) := by
    simp [assembleCommand, indexLiteral, hn1, hn2]
  refine ⟨.ldest (narrowEst e), .ldidx (BitVec.ofNat 6 n.toNat), by simp [assembleLine, hest],
    by simp [assembleLine, hidx], by simp [assembleLine, hest, hidx], fun s => ?_⟩
  have hk : ((BitVec.ofNat 6 n.toNat).toNat : Int) = n := by rw [BitVec.toNat_ofNat]; omega
  have hexec : exec (.ldidx (BitVec.ofNat 6 n.toNat)) (setEst (sext12 (narrowEst e)) s) =
      .next (setIdx n (setEst (sext12 (narrowEst e)) s)) := by
    rw [exec_ldidx_of_le (by omega), hk]
  refine ⟨setIdx n (setEst (sext12 (narrowEst e)) s), (execAll_cons rfl).trans (execAll_cons hexec), ?_, ?_, rfl⟩
  · rw [setIdx_est, setEst_est, narrowEst_sext12, sext12_narrowEst he1 he2]
  · exact narrowIdx_val hn1 hn2

end Sys2Proof.Machine
end

section
/-! PROOFS of 40_codec.md. First the codec as functions on integers: the clamp (R14), `delta` (R103, R104), the adjustments (R101)
and QUANT's closed form (R108, R117). Then the registers after a code is applied (R105, R106, R118), the commands that use them
(R111 to R115), and streams of codes (R109, R110, R116). -/

namespace Sys2Proof.Machine

open Laws.EncodedOpcode (opOf)

/-! ### The clamp (R14) -/

theorem clamp_eq_max_min {lo hi : Int} (hle : lo ≤ hi) (v : Int) : clamp v lo hi = max lo (min hi v) := by
  unfold clamp
  split
  · omega
  · split <;> omega

theorem clamp_of_le {v lo hi : Int} (hle : lo ≤ hi) (h : v ≤ lo) : clamp v lo hi = lo := by
  rw [clamp_eq_max_min hle]; omega

theorem clamp_of_ge {v lo hi : Int} (hle : lo ≤ hi) (h : hi ≤ v) : clamp v lo hi = hi := by
  rw [clamp_eq_max_min hle]; omega

/-- Only a clamp at a bound takes a nonzero step back. -/
theorem eq_bound_of_clamp_add_eq {e d lo hi : Int} (hd : d ≠ 0) (h : clamp (e + d) lo hi = e) : e = lo ∨ e = hi := by
  unfold clamp at h
  split at h
  · exact .inl h.symm
  · split at h
    · exact .inr h.symm
    · omega

/-! ### STEP_ADJUST (R101) -/

theorem stepAdjust_eq_getD (c : Code) :
    stepAdjust c = [-1, -1, -1, -1, 2, 4, 6, 8, -1, -1, -1, -1, 2, 4, 6, 8].getD c.toNat 0 := by revert c; decide

theorem stepAdjust_bounds (c : Code) : -1 ≤ stepAdjust c ∧ stepAdjust c ≤ 8 := by revert c; decide

theorem stepAdjust_of_low {c : Code} (h : c.toNat % 8 ≤ 3) : stepAdjust c = -1 := by revert c; decide

/-- Settles O43, over the sixteen codes. -/
theorem stepAdjustTable : Obligations.StepAdjustTable :=
  ⟨stepAdjust_eq_getD, by decide, fun c => ⟨(stepAdjust_bounds c).1, (stepAdjust_bounds c).2, by revert c; decide⟩⟩

/-! ### `delta` (R103, R104) -/

/-- Bit 3 of a code is its sign (R69). -/
theorem sign_eq_decide (c : Code) : c.getLsbD 3 = decide (8 ≤ c.toNat) := by revert c; decide

theorem delta_of_lt {c : Code} (h : c.toNat < 8) (ss : Nat) : delta ss c = deltaMagnitude ss c :=
  if_neg (by rw [sign_eq_decide, decide_eq_true_eq]; omega)

theorem delta_of_ge {c : Code} (h : 8 ≤ c.toNat) (ss : Nat) : delta ss c = -(deltaMagnitude ss c : Int) :=
  if_pos (by rwa [sign_eq_decide, decide_eq_true_eq])

@[simp] theorem delta_zero (ss : Nat) : delta ss 0#4 = (ss >>> 3 : Nat) := rfl

@[simp] theorem delta_eight (ss : Nat) : delta ss 8#4 = -((ss >>> 3 : Nat) : Int) := rfl

theorem eighth_le_deltaMagnitude (ss : Nat) (c : Code) : ss >>> 3 ≤ deltaMagnitude ss c := by
  unfold deltaMagnitude; omega

/-- The greatest magnitude is code 7's, with all four terms. -/
theorem deltaMagnitude_le_all_terms (ss : Nat) (c : Code) :
    deltaMagnitude ss c ≤ ss >>> 3 + ss >>> 2 + ss >>> 1 + ss := by
  have term_le (b : Bool) (v : Nat) : (if b then v else 0) ≤ v := by split <;> omega
  exact Nat.add_le_add (Nat.add_le_add (Nat.add_le_add_left (term_le _ _) _) (term_le _ _)) (term_le _ _)

/-- The sign bit is no part of the magnitude. -/
theorem deltaMagnitude_add_eight (ss : Nat) (c : Code) : deltaMagnitude ss (c + 8) = deltaMagnitude ss c := by
  have h : (c + 8).getLsbD 0 = c.getLsbD 0 ∧ (c + 8).getLsbD 1 = c.getLsbD 1 ∧ (c + 8).getLsbD 2 = c.getLsbD 2 := by
    revert c; decide
  simp only [deltaMagnitude, h]

theorem delta_add_eight {c : Code} (h : c.toNat < 8) (ss : Nat) : delta ss (c + 8) = -delta ss c := by
  have h8 : 8 ≤ (c + 8).toNat := by revert c; decide
  rw [delta_of_ge h8, delta_of_lt h, deltaMagnitude_add_eight]

/-- The eighth of a step of at least 8 is at least 1, and no code takes it away. -/
theorem delta_ne_zero {ss : Nat} (h : 8 ≤ ss) (c : Code) : delta ss c ≠ 0 := by
  have hmag := eighth_le_deltaMagnitude ss c
  rcases Nat.lt_or_ge c.toNat 8 with hc | hc
  · rw [delta_of_lt hc]; omega
  · rw [delta_of_ge hc]; omega

/-- Over a step of at most 1552, `delta` is within 2910 of 0 (R118). -/
theorem delta_bounds {ss : Nat} (h : ss ≤ 1552) (c : Code) : -2910 ≤ delta ss c ∧ delta ss c ≤ 2910 := by
  have hmag := deltaMagnitude_le_all_terms ss c
  rcases Nat.lt_or_ge c.toNat 8 with hc | hc
  · rw [delta_of_lt hc]; omega
  · rw [delta_of_ge hc]; omega

theorem stepSize_default_bounds (n : StepIndex) :
    8 ≤ stepSize defaultStepTable n ∧ stepSize defaultStepTable n ≤ 1552 := by revert n; decide

/-- Settles O44, by the 49 entries. -/
theorem defaultStepTableValues : Obligations.DefaultStepTableValues := ⟨by decide, by decide⟩

/-- Settles O45: the unconditional eighth keeps `delta` away from 0, and only the sign bit tells code `c + 8` from `c`. -/
theorem deltaNeverZero : Obligations.DeltaNeverZero := by
  refine ⟨fun tbl htbl n c => ⟨delta_ne_zero (htbl n) c, fun e _ _ he => ?_⟩, fun n => (stepSize_default_bounds n).1,
    fun ss => ⟨delta_zero ss, delta_eight ss⟩, fun ss c hc => delta_add_eight hc ss, fun tbl h16 => ?_⟩
  · exact eq_bound_of_clamp_add_eq (delta_ne_zero (htbl n) c) he
  · rw [h16]; decide

/-! ### DECODE on integers (R103) -/

/-- Settles O40: the code's bits as the digits of its number, and the clamps as bounds. -/
theorem decodeFollowsItsRule : Obligations.DecodeFollowsItsRule := by
  intro tbl c n e
  have bit (i : Nat) : c.getLsbD i = decide (c.toNat / 2 ^ i % 2 = 1) := Nat.testBit_eq_decide_div_mod_eq
  simp only [decodeSample, delta, deltaMagnitude, stepSize, bit, decide_eq_true_eq, stepAdjust_eq_getD,
    clamp_eq_max_min (show (-2048 : Int) ≤ 2047 by decide), clamp_eq_max_min (show (0 : Int) ≤ 48 by decide)]
  norm_num

/-! ### QUANT's closed form (R108, R117) -/

/-- The magnitude of the range between thresholds that the distance `m` lies in (R117). -/
def rangeMagnitude (ss : Nat) (m : Int) : Nat :=
  let h : Int := (ss >>> 1 : Nat)
  let q : Int := (ss >>> 2 : Nat)
  if m < q then 0 else if m < h then 1 else if m < h + q then 2 else if m < ss then 3
    else if m < ss + q then 4 else if m < ss + h then 5 else if m < ss + h + q then 6 else 7

/-- Half and quarter of a positive step, so that the thresholds are in order (R117). -/
theorem thresholds_ordered {ss : Nat} (h : 0 < ss) : ss >>> 2 ≤ ss >>> 1 ∧ ss >>> 1 + ss >>> 2 < ss := by omega

/-- Three magnitude bits as a number. -/
theorem toNat_magnitudeBits (b2 b1 b0 : Bool) :
    ((if b2 then 4#4 else 0#4) ||| (if b1 then 2#4 else 0#4) ||| (if b0 then 1#4 else 0#4)).toNat =
      (if b2 then 4 else 0) + (if b1 then 2 else 0) + (if b0 then 1 else 0) := by revert b2 b1 b0; decide

/-- Bit 2 says whether the distance reaches the step, bit 1 whether what is left reaches its half, and bit 0 whether what is
left then reaches its quarter. -/
theorem quantMagnitude_toNat {ss : Nat} (hss : 0 < ss) (m : Int) :
    (quantMagnitude ss m).toNat = rangeMagnitude ss m := by
  obtain ⟨hqh, hhq⟩ := thresholds_ordered hss
  rw [quantMagnitude, toNat_magnitudeBits, rangeMagnitude]
  simp only [decide_eq_true_eq]
  generalize ss >>> 1 = h at *
  generalize ss >>> 2 = q at *
  rcases lt_or_ge m ss with h2 | h2
  · grind
  · grind

theorem rangeMagnitude_le (ss : Nat) (m : Int) : rangeMagnitude ss m ≤ 7 := by
  simp only [rangeMagnitude]; split_ifs <;> omega

/-- Below the first threshold the magnitude is 0. -/
theorem quantMagnitude_of_lt_quarter {ss : Nat} (hss : 0 < ss) {m : Int} (h : m < (ss >>> 2 : Nat)) :
    quantMagnitude ss m = 0#4 :=
  BitVec.eq_of_toNat_eq ((quantMagnitude_toNat hss m).trans (if_pos h))

/-- From the last threshold on the magnitude is 7. -/
theorem quantMagnitude_of_ge_last {ss : Nat} (hss : 0 < ss) {m : Int} (h : ss + ss >>> 1 + ss >>> 2 ≤ m) :
    quantMagnitude ss m = 7#4 := by
  have hmag : rangeMagnitude ss m = 7 := by simp only [rangeMagnitude]; split_ifs <;> omega
  exact BitVec.eq_of_toNat_eq ((quantMagnitude_toNat hss m).trans hmag)

/-- The sign bit stands above the magnitude (R69, R108). -/
theorem quantize_toNat {tbl : StepTable} {n : StepIndex} (hss : 0 < stepSize tbl n) (s e : Int) :
    (quantize tbl s e n).toNat =
      let mag := rangeMagnitude (stepSize tbl n) (if s - e < 0 then -(s - e) else s - e)
      if s - e < 0 then 8 + mag else mag := by
  have sign : ∀ c : Code, c.toNat ≤ 7 → (8#4 ||| c).toNat = 8 + c.toNat := by decide
  have hle (m : Int) : (quantMagnitude (stepSize tbl n) m).toNat ≤ 7 := by
    rw [quantMagnitude_toNat hss]; exact rangeMagnitude_le _ m
  rw [quantize]
  split
  · rw [sign _ (hle _), quantMagnitude_toNat hss]
  · exact quantMagnitude_toNat hss _

/-- Settles O46: the closed form of each sign, and the thresholds by the two entries. -/
theorem quantizerClosedForm : Obligations.QuantizerClosedForm := by
  refine ⟨fun tbl n s e hss => ?_, by decide⟩
  obtain ⟨hqh, hhq⟩ := thresholds_ordered hss
  exact ⟨Int.ofNat_le.2 hqh, by omega, quantize_toNat hss s e⟩

/-! ### The registers after a code (R105, R106, R118) -/

theorem sext12_applyCode_est (c : Code) (s : State) : sext12 (applyCode c s).est =
    clamp (sext12 s.est + delta (stepSize s.stepTable s.idx) c) (-2048) 2047 :=
  congrArg Prod.fst (applyCode_spec c s).1

theorem applyCode_idx_val (c : Code) (s : State) :
    ((applyCode c s).idx.val : Int) = clamp (s.idx.val + stepAdjust c) 0 48 :=
  congrArg Prod.snd (applyCode_spec c s).1

/-- A code with a clear sign bit keeps the estimate at its upper bound. -/
theorem sext12_applyCode_est_of_max {s : State} {c : Code} (he : sext12 s.est = 2047) (hc : c.toNat < 8) :
    sext12 (applyCode c s).est = 2047 := by
  rw [sext12_applyCode_est, he, delta_of_lt hc]
  exact clamp_of_ge (by decide) (by omega)

/-- A code with a set sign bit keeps the estimate at its lower bound. -/
theorem sext12_applyCode_est_of_min {s : State} {c : Code} (he : sext12 s.est = -2048) (hc : 8 ≤ c.toNat) :
    sext12 (applyCode c s).est = -2048 := by
  rw [sext12_applyCode_est, he, delta_of_ge hc]
  exact clamp_of_le (by decide) (by omega)

/-- A code of magnitude 0 to 3 keeps the index at 0 (R106). -/
theorem applyCode_idx_of_low {s : State} {c : Code} (hn : s.idx = 0) (hc : c.toNat % 8 ≤ 3) : (applyCode c s).idx = 0 := by
  have h := applyCode_idx_val c s
  rw [hn, stepAdjust_of_low hc] at h
  exact Fin.ext (Int.ofNat_inj.1 h)

/-- What DECODE answers for the registers is what a decode puts into them and emits. -/
theorem decodeOne_of_decodeSample {s : State} {c : Code} {e n : Int}
    (h : decodeSample s.stepTable c s.idx (sext12 s.est) = (e, n)) :
    (decodeOne c s).est = narrowEst e ∧ (decodeOne c s).idx = narrowIdx n ∧
      pcmOut (decodeOne c s) = pcmOut s ++ [narrowEst e] := by
  have hout := pcmOut_emitSample (decodeSample s.stepTable c s.idx (sext12 s.est)).1 (applyCode c s)
  simp only [decodeOne, applyCode, h] at hout ⊢
  exact ⟨rfl, rfl, hout⟩

/-- A decode emits the estimate it leaves (R55). -/
theorem pcmOut_decodeOne (c : Code) (s : State) : pcmOut (decodeOne c s) = pcmOut s ++ [(decodeOne c s).est] :=
  pcmOut_emitSample _ (applyCode c s)

/-- Settles O41, by the register after the code in each range of the sum. -/
theorem estimateSaturates : Obligations.EstimateSaturates := by
  intro s c
  refine ⟨decodeOne c s, rfl, fun h => ?_, fun h => ?_, fun h1 h2 => ?_⟩
  · exact (sext12_applyCode_est c s).trans (clamp_of_ge (by decide) h.le)
  · exact (sext12_applyCode_est c s).trans (clamp_of_le (by decide) h.le)
  · exact (sext12_applyCode_est c s).trans (clamp_of_mem h1 h2)

/-- Settles O42, by the register after the code at either bound. -/
theorem stepIndexSaturates : Obligations.StepIndexSaturates := by
  have saturates (s : State) (c : Code) (h : 48 < (s.idx.val : Int) + stepAdjust c) : (decodeOne c s).idx = 48 :=
    Fin.ext (Int.ofNat_inj.1 ((applyCode_idx_val c s).trans (clamp_of_ge (by decide) h.le)))
  exact ⟨fun s c => ⟨decodeOne c s, rfl, applyCode_idx_val c s, applyCode_idx_of_low, saturates s c⟩,
    fun s hn => ⟨decodeOne 5 s, rfl, saturates s 5 (by rw [hn]; decide)⟩⟩

/-- Settles O47: the ranges of two patterns, of `delta` and of an adjustment, and the registers after a code. -/
theorem datapathNeverWraps : Obligations.DatapathNeverWraps := by
  have hdelta (n : StepIndex) (c : Code) := delta_bounds (stepSize_default_bounds n).2 c
  refine ⟨fun x y => ?_, fun n c => ?_, fun y n c => ?_, fun s c => (applyCode_spec c s).1⟩
  · have hx := sext12_bounds x
    have hy := sext12_bounds y
    omega
  · have hn : n.val < 49 := n.isLt
    have ha := stepAdjust_bounds c
    exact ⟨(hdelta n c).1, (hdelta n c).2, by omega, by omega⟩
  · have hy := sext12_bounds y
    have hd := hdelta n c
    omega

/-! ### Rejected words of the codec commands (R64) -/

/-- A word of a row is rejected when a field above its format's operand is not zero. -/
theorem decode_of_reserved_field {m : Mnemonic} {n : Nat} {x : BitVec 12} (hx : x.extractLsb' (operandBits m) n ≠ 0#n) :
    decode (opOf m ++ x : CmdWord) = .rejected .reservedBits := by
  rw [decode_opOf_append, if_pos]
  intro hzero
  rw [reserved_eq_zero_iff] at hzero
  refine hx (BitVec.eq_of_toNat_eq ?_)
  simp [BitVec.extractLsb'_toNat, Nat.shiftRight_eq_div_pow, Nat.div_eq_of_lt hzero]

/-! ### DEC and DECB (R112, R113) -/

/-- Settles O32, by the registers after the code. -/
theorem decDecodesOneCode : Obligations.DecDecodesOneCode := by
  refine ⟨fun s c => ⟨decodeOne c s, rfl, (applyCode_spec c s).1, rfl, rfl, rfl, ?_, ?_, sext12_applyCode_est_of_max,
      sext12_applyCode_est_of_min, applyCode_idx_of_low⟩, fun c => ⟨rfl, decode_encode (i := .dec c) rfl⟩,
    fun x hx => decode_of_reserved_field (m := .dec) hx, fun s h16 he hn => ?_⟩
  · rintro rfl; exact sext12_applyCode_est 0#4 s
  · rintro rfl; exact sext12_applyCode_est 8#4 s
  · have h : decodeSample s.stepTable 7 s.idx (sext12 s.est) = (30, 8) := by
      rw [decodeSample, he, hn, h16]; decide
    obtain ⟨hest, hidx, hout⟩ := decodeOne_of_decodeSample h
    exact ⟨decodeOne 7 s, rfl, hout, by rw [hest]; decide, by rw [hidx]; decide⟩

/-- Settles O33: DECB is two decodes, each with the registers the one before it left. -/
theorem decbDecodesLowThenHigh : Obligations.DecbDecodesLowThenHigh := by
  refine ⟨fun s b => ⟨decodeOne (lowNibble b) s, decodeOne (highNibble b) (decodeOne (lowNibble b) s), rfl, rfl, rfl,
      rfl, List.append_assoc .., rfl, (applyCode_spec _ s).1, (applyCode_spec _ _).1, fun hb => ?_, ?_⟩,
    fun b => ⟨rfl, decode_encode (i := .decb b) rfl⟩, fun x hx => decode_of_reserved_field (m := .decb) hx,
    fun s htbl he hn => ?_⟩
  · rw [highNibble, hb]; exact sext12_applyCode_est 0#4 (decodeOne (lowNibble b) s)
  · rintro rfl; exact sext12_applyCode_est 0#4 s
  · have hlow : decodeSample s.stepTable (lowNibble 0x77) s.idx (sext12 s.est) = (30, 8) := by
      rw [htbl, he, hn]; decide
    obtain ⟨hest, hidx, hout⟩ := decodeOne_of_decodeSample hlow
    have hhigh : decodeSample s.stepTable (highNibble 0x77) (decodeOne (lowNibble 0x77) s).idx
        (sext12 (decodeOne (lowNibble 0x77) s).est) = (93, 16) := by
      rw [htbl, hest, hidx]; decide
    obtain ⟨hest', hidx', hout'⟩ := decodeOne_of_decodeSample (s := decodeOne (lowNibble 0x77) s) hhigh
    refine ⟨_, rfl, ?_, by rw [hest']; decide, by rw [hidx']; decide, rfl⟩
    rw [hout', hout, List.append_assoc]; rfl

/-! ### ENC (R109, R111) -/

@[simp] theorem pack_est (c : Code) (s : State) : (pack c s).est = s.est := by rw [pack_frame]
@[simp] theorem pack_idx (c : Code) (s : State) : (pack c s).idx = s.idx := by rw [pack_frame]

/-- The packed byte has the second code of the pair above the first (R70). -/
theorem packByte_eq_append (high low : Code) : packByte high low = high ++ low := by revert high low; decide

theorem pack_of_empty {s : State} (hhalf : s.pkHalf = false) (c : Code) :
    pack c s = { s with pkHold := c, pkHalf := true } := by simp [pack, hhalf, setPacker]

theorem pack_of_held {s : State} (hhalf : s.pkHalf = true) (c : Code) :
    pack c s = { s with pkHold := 0#4, pkHalf := false, out := s.out ++ [.byte (c ++ s.pkHold)] } := by
  simp [pack, hhalf, setPacker, emitByte, packByte_eq_append]

theorem exec_enc_of_code {x : Sample} {s : State} {c : Code} (hc : encodedCode x s = c) :
    exec (.enc x) s = .next (pack c (applyCode c s)) := by rw [← hc]; rfl

theorem quantize_of_neg {s e : Int} (h : s - e < 0) (tbl : StepTable) (n : StepIndex) :
    quantize tbl s e n = 8#4 ||| quantMagnitude (stepSize tbl n) (-(s - e)) := if_pos h

theorem quantize_of_nonneg {s e : Int} (h : 0 ≤ s - e) (tbl : StepTable) (n : StepIndex) :
    quantize tbl s e n = quantMagnitude (stepSize tbl n) (s - e) := if_neg (Int.not_lt.2 h)

/-- A sample equal to the estimate lies below the first threshold, on the side without the sign bit. -/
theorem encodedCode_est {s : State} (hss : 4 ≤ stepSize s.stepTable s.idx) : encodedCode s.est s = 0#4 := by
  rw [encodedCode, quantize_of_nonneg (by omega)]
  exact quantMagnitude_of_lt_quarter (by omega) (by omega)

/-- A sample 1 to 3 below the estimate at a step of 16 lies below the first threshold on the negative side. -/
theorem encodedCode_just_below {s : State} {x : Sample} (hss : stepSize s.stepTable s.idx = 16)
    (h1 : 1 ≤ sext12 s.est - sext12 x) (h3 : sext12 s.est - sext12 x ≤ 3) : encodedCode x s = 8#4 := by
  rw [encodedCode, quantize_of_neg (by omega), quantMagnitude_of_lt_quarter (by omega) (by rw [hss]; omega)]
  rfl

/-- The greatest difference passes the last threshold of every step of at most 1552. -/
theorem encodedCode_magnitude_of_extreme {s : State} {x : Sample} (hpos : 0 < stepSize s.stepTable s.idx)
    (hss : stepSize s.stepTable s.idx ≤ 1552)
    (hx : sext12 x - sext12 s.est = 4095 ∨ sext12 x - sext12 s.est = -4095) :
    (encodedCode x s).extractLsb' 0 3 = 7#3 := by
  rcases hx with hx | hx
  · rw [encodedCode, quantize_of_nonneg (by omega), quantMagnitude_of_ge_last hpos (by omega)]; rfl
  · rw [encodedCode, quantize_of_neg (by omega), quantMagnitude_of_ge_last hpos (by omega)]; rfl

/-- Settles O31, by the code of each corner case, the registers after it and PACK. -/
theorem encEncodesOneSample : Obligations.EncEncodesOneSample := by
  refine ⟨fun s x => ?anyState, fun x => ⟨rfl, decode_encode (i := .enc x) rfl⟩, fun s hss => ?equal,
    fun s x h16 hn h1 h3 => ?below, fun s x htbl hx => ?extreme, fun s e h16 hn he hbound => ?bounds,
    fun s h16 he hn hhalf => ?fromReset⟩
  case anyState =>
    refine ⟨pack (encodedCode x s) (applyCode (encodedCode x s) s), rfl, ?_, pack_code _ _, fun hhalf => ?_,
      fun hhalf => ?_, ?_⟩
    · rw [pack_est, pack_idx]; exact (applyCode_spec _ s).1
    · rw [pack_of_empty (s := applyCode _ s) hhalf]; exact ⟨rfl, rfl, rfl⟩
    · rw [pack_of_held (s := applyCode _ s) hhalf]; exact ⟨rfl, rfl, rfl⟩
    · rw [pack_est, pack_idx, pack_code]; exact pack_frame _ _
  case equal =>
    refine ⟨_, exec_enc_of_code (encodedCode_est hss), by simp, ?_⟩
    rw [pack_est, sext12_applyCode_est, delta_zero]
  case below =>
    refine ⟨_, exec_enc_of_code (encodedCode_just_below (by rw [hn, h16]) h1 h3), by simp, ?_⟩
    rw [pack_est, sext12_applyCode_est, delta_eight, hn, h16]; rfl
  case extreme =>
    have hb := stepSize_default_bounds s.idx
    rw [← htbl] at hb
    refine ⟨_, rfl, ?_⟩
    rw [pack_code]
    exact encodedCode_magnitude_of_extreme (by omega) hb.2 hx
  case bounds =>
    refine ⟨_, exec_enc_of_code (encodedCode_est (by rw [hn, h16]; decide)), by simp, ?_⟩
    rw [pack_est, sext12_applyCode_est, delta_zero, hn, h16, he]
    rcases hbound with rfl | rfl <;> decide
  case fromReset =>
    have hc : encodedCode 100 s = 7#4 := by rw [encodedCode, quantize, he, hn, h16]; decide
    have hest := sext12_applyCode_est 7#4 s
    have hidx := applyCode_idx_val 7#4 s
    rw [he, hn, h16] at hest
    rw [hn] at hidx
    refine ⟨_, exec_enc_of_code hc, by simp, by rw [pack_est, hest]; decide, ?_, ?_⟩
    · rw [pack_idx]; exact Int.ofNat_inj.1 hidx
    · rw [pack_of_empty (s := applyCode _ s) hhalf]; exact ⟨rfl, rfl⟩

/-! ### LDEST and LDIDX (R114, R115) -/

/-- Settles O34: a pattern read as an integer is written back as the same pattern. -/
theorem ldestLoadsEstimate : Obligations.LdestLoadsEstimate := by
  have load (s : State) (x : Sample) : exec (.ldest x) s = .next { s with est := x } := by
    simp [exec, execLdest, setEst]
  refine ⟨load, fun v h1 h2 => ?_, fun x => ⟨rfl, decode_encode (i := .ldest x) rfl⟩, by decide, by decide⟩
  have hv := sext12_narrowEst h1 h2
  exact ⟨narrowEst v, hv, fun s => ⟨_, load s _, hv⟩⟩

/-- Settles O35: the load, the two rejections, and the boundary words. -/
theorem ldidxLoadsIndex : Obligations.LdidxLoadsIndex := by
  refine ⟨fun s k hk => ⟨_, exec_ldidx_of_le hk s, ?_, rfl⟩, fun s k hk => ?_,
    fun k hk => decode_encode (i := .ldidx k) (decide_eq_true hk), fun k hk => decode_encode_ldidx_of_gt hk,
    fun x hx => decode_of_reserved_field (m := .ldidx) hx, by decide, by decide, by decide, by decide⟩
  · exact Int.ofNat_inj.1 (narrowIdx_val (Int.natCast_nonneg _) (Int.ofNat_le.2 hk))
  · rw [exec_ldidx_of_gt hk, raiseError_eq]; rfl

/-! ### The codec state of two runs (R109, R110, R116) -/

/-- Two states that the codec cannot tell apart: the same `EST` and `IDX` over the same table (R110). -/
def SameCodec (s s' : State) : Prop := s.est = s'.est ∧ s.idx = s'.idx ∧ s.stepTable = s'.stepTable

theorem sameCodec_applyCode {s s' : State} (h : SameCodec s s') (c : Code) :
    SameCodec (applyCode c s) (applyCode c s') := by
  obtain ⟨hest, hidx, htbl⟩ := h
  simp [SameCodec, applyCode, hest, hidx, htbl]

theorem encodedCode_of_sameCodec {s s' : State} (h : SameCodec s s') (x : Sample) : encodedCode x s = encodedCode x s' := by
  obtain ⟨hest, hidx, htbl⟩ := h
  rw [encodedCode, encodedCode, hest, hidx, htbl]

/-- PACK and the emission of a sample do not touch the codec state, so ENC and DEC of one code leave the same one. -/
theorem sameCodec_pack_decodeOne {s s' : State} (h : SameCodec s s') (c : Code) :
    SameCodec (pack c (applyCode c s)) (decodeOne c s') := by
  simpa [SameCodec, decodeOne] using sameCodec_applyCode h c

/-- Settles O50: the code and the code's effect are functions of the codec state. -/
theorem codecIsPure : Obligations.CodecIsPure := by
  intro s s' hest hidx htbl
  have h : SameCodec s s' := ⟨hest, hidx, htbl⟩
  refine ⟨fun x => ⟨_, _, rfl, exec_enc_of_code (encodedCode_of_sameCodec h x).symm, ?_⟩, fun c => ?_⟩
  · obtain ⟨hest', hidx', -⟩ := sameCodec_applyCode h (encodedCode x s)
    simp [hest', hidx']
  · obtain ⟨hest', hidx', -⟩ := sameCodec_applyCode h c
    refine ⟨decodeOne c s, decodeOne c s', rfl, rfl, hest', hidx', _, pcmOut_decodeOne c s, ?_⟩
    rw [pcmOut_decodeOne]
    exact congrArg (fun v => pcmOut s' ++ [v]) hest'.symm

/-- The encode loop goes on from the registers its first code leaves (R109). -/
theorem encodeCodes_cons (x : Sample) (rest : List Sample) (s : State) :
    encodeCodes s.stepTable (x :: rest) s.idx (sext12 s.est) =
      encodedCode x s :: encodeCodes s.stepTable rest (applyCode (encodedCode x s) s).idx
        (sext12 (applyCode (encodedCode x s) s).est) := by
  rw [sext12_applyCode_est]; rfl

/-- The decode loop goes on from the registers its first code leaves (R103). -/
theorem decodeEstimates_cons (c : Code) (rest : List Code) (s : State) :
    decodeEstimates s.stepTable (c :: rest) s.idx (sext12 s.est) =
      sext12 (applyCode c s).est :: decodeEstimates s.stepTable rest (applyCode c s).idx (sext12 (applyCode c s).est) := by
  rw [sext12_applyCode_est]; rfl

/-- By induction on the samples: each code the encoder gives is decoded from the codec state it was given in. -/
theorem decode_follows_encode (xs : List Sample) {s s' : State} (h : SameCodec s s') :
    ∃ t u, execAll (xs.map .enc) s = .next t ∧
      execAll ((encodeCodes s.stepTable xs s.idx (sext12 s.est)).map .dec) s' = .next u ∧ SameCodec t u := by
  induction xs generalizing s s' with
  | nil => exact ⟨s, s', rfl, rfl, h⟩
  | cons x rest ih =>
    obtain ⟨t, u, ht, hu, htu⟩ := ih (sameCodec_pack_decodeOne h (encodedCode x s))
    rw [pack_stepTable, pack_idx, pack_est] at hu
    rw [encodeCodes_cons]
    exact ⟨t, u, (execAll_cons rfl).trans ht, (execAll_cons rfl).trans hu, htu⟩

/-- Settles O49: INIT leaves the same codec state for both conversions. -/
theorem decoderReproducesEncoder : Obligations.DecoderReproducesEncoder := by
  intro xs s
  obtain ⟨t, u, ht, hu, hest, hidx, -⟩ := decode_follows_encode xs (s := clearConversion s) ⟨rfl, rfl, rfl⟩
  exact ⟨t, u, (execAll_cons rfl).trans ht, (execAll_cons rfl).trans hu, hest, hidx⟩

theorem execAll_keeps_stepTable (is : List Instr) {s t : State} (h : execAll is s = .next t) : t.stepTable = s.stepTable := by
  induction is generalizing s with
  | nil => cases h; rfl
  | cons i rest ih =>
    obtain ⟨u, hu⟩ := exec_answers_next i s
    exact (ih ((execAll_cons hu).symm.trans h)).trans (exec_keeps_stepTable hu)

/-- By induction on the codes: the samples emitted are the estimates of the decode loop. -/
theorem execAll_dec_emits (codes : List Code) {s t : State} (h : execAll (codes.map .dec) s = .next t) :
    pcmOut t = pcmOut s ++ (decodeEstimates s.stepTable codes s.idx (sext12 s.est)).map narrowEst := by
  induction codes generalizing s with
  | nil => cases h; simp [decodeEstimates]
  | cons c rest ih =>
    have hrest := ih (s := decodeOne c s) ((execAll_cons rfl).symm.trans h)
    rw [hrest, pcmOut_decodeOne, decodeEstimates_cons, List.map_cons, narrowEst_sext12, List.append_assoc]
    rfl

/-- A conversion that begins with INIT emits the samples of the decode loop from `(0, 0)` (R116). -/
theorem execAll_init_dec_emits (codes : List Code) (s : State) :
    ∃ t, execAll (.init :: codes.map .dec) s = .next t ∧ t.stepTable = s.stepTable ∧
      pcmOut t = pcmOut s ++ (decodeEstimates s.stepTable codes 0 0).map narrowEst := by
  obtain ⟨t, ht⟩ := execAll_answers_next (codes.map .dec) (clearConversion s)
  exact ⟨t, (execAll_cons rfl).trans ht, execAll_keeps_stepTable (s := clearConversion s) _ ht,
    execAll_dec_emits (s := clearConversion s) codes ht⟩

/-- Settles O48: DECODE's clamps, ENC beside DEC of its code, and two conversions of the same codes. -/
theorem sourcePropertiesHold : Obligations.SourcePropertiesHold := by
  refine ⟨fun tbl c n e => ⟨decodeSample_est_bounds tbl c n e, decodeSample_idx_bounds tbl c n e⟩, fun s x => ?_,
    fun codes s => ?_⟩
  · have h : SameCodec s s := ⟨rfl, rfl, rfl⟩
    obtain ⟨hest, hidx, -⟩ := sameCodec_pack_decodeOne h (encodedCode x s)
    have hcode : (pack (encodedCode x s) (applyCode (encodedCode x s) s)).code = encodedCode x s := pack_code _ _
    exact ⟨_, decodeOne (encodedCode x s) s, rfl, by rw [hcode]; rfl, hest, hidx, hcode⟩
  · obtain ⟨t, ht, htbl, hout⟩ := execAll_init_dec_emits codes s
    obtain ⟨u, hu, -, hout'⟩ := execAll_init_dec_emits codes t
    exact ⟨u, (execAll_append ht).trans hu, by rw [hout', hout, htbl]⟩

end Sys2Proof.Machine
end

section
/-! PROOFS of 41_packer.md. The source's list of bytes by pairs of codes and its unpacking (R144, R148), the packer registers as the
codes still to be emitted (R141, R143), what a sequence of ENC and a FLUSH emit (R144 to R147), and FLUSH's own rule (R143). -/

namespace Sys2Proof.Machine

/-! ### The source's list of bytes, pair by pair (R144, R148) -/

@[simp] theorem lowNibble_append (high low : Code) : lowNibble (high ++ low) = low := BitVec.extractLsb'_append_eq_right

@[simp] theorem highNibble_append (high low : Code) : highNibble (high ++ low) = high := by
  rw [highNibble, BitVec.extractLsb'_append_eq_of_le le_rfl, BitVec.extractLsb'_eq_self]

theorem setWidth_code_eq_append (c : Code) : c.setWidth 8 = 0#4 ++ c := by revert c; decide

/-- Two passes of the source's loop from an even index: the second one fills the high nibble of the byte the first one
appends. -/
theorem sourcePackFrom_cons_cons {i : Nat} (hi : i % 2 = 0) (bytes : List Byte) (low high : Code) (rest : List Code) :
    sourcePackFrom i bytes (low :: high :: rest) = sourcePackFrom (i + 2) (bytes ++ [high ++ low]) rest := by
  have hodd : (i + 1) % 2 ≠ 0 := by omega
  have hbyte : low.setWidth 8 ||| high.setWidth 8 <<< 4 = high ++ low := by
    rw [BitVec.or_comm]; exact packByte_eq_append high low
  simp only [sourcePackFrom, sourcePackStep, if_pos hi, if_neg hodd, List.dropLast_concat, List.getLast?_concat,
    Option.getD_some, hbyte]

/-- From an even index on the loop only appends, and it appends the list it gives from the beginning. -/
theorem sourcePackFrom_of_even {i : Nat} (hi : i % 2 = 0) (bytes : List Byte) (codes : List Code) :
    sourcePackFrom i bytes codes = bytes ++ sourcePack codes := by
  induction codes using List.twoStepInduction generalizing i bytes with
  | nil => exact (List.append_nil bytes).symm
  | singleton c => simp [sourcePack, sourcePackFrom, sourcePackStep, hi]
  | cons_cons low high rest ih _ =>
    rw [sourcePack, sourcePackFrom_cons_cons hi, sourcePackFrom_cons_cons rfl, ih (by omega), ih rfl, List.append_assoc]
    rfl

@[simp] theorem sourcePack_nil : sourcePack [] = [] := rfl

@[simp] theorem sourcePack_singleton (c : Code) : sourcePack [c] = [0#4 ++ c] := by
  rw [← setWidth_code_eq_append]; rfl

@[simp] theorem sourcePack_cons_cons (low high : Code) (rest : List Code) :
    sourcePack (low :: high :: rest) = (high ++ low) :: sourcePack rest := by
  rw [sourcePack, sourcePackFrom_cons_cons rfl, sourcePackFrom_of_even rfl]; rfl

theorem length_sourcePack (codes : List Code) : (sourcePack codes).length = (codes.length + 1) / 2 := by
  induction codes using List.twoStepInduction with
  | nil | singleton => simp
  | cons_cons low high rest ih _ => simp only [sourcePack_cons_cons, List.length_cons, ih]; omega

/-- The closed form of R144; the code missing after an odd number of codes is read as 0. -/
theorem sourcePack_getElem? {codes : List Code} {k : Nat} (hk : k < (codes.length + 1) / 2) :
    (sourcePack codes)[k]? = some (codes.getD (2 * k + 1) 0#4 ++ codes.getD (2 * k) 0#4) := by
  induction codes using List.twoStepInduction generalizing k with
  | nil => simp at hk
  | singleton c =>
    obtain rfl : k = 0 := by simpa using hk
    simp
  | cons_cons low high rest ih _ =>
    cases k with
    | zero => simp
    | succ k =>
      rw [sourcePack_cons_cons, List.getElem?_cons_succ, ih (by simp only [List.length_cons] at hk; omega)]
      rfl

/-- Each byte gives its pair back, and the last byte of an odd number of codes its code and the 0 above it. -/
theorem unpack_sourcePack (codes : List Code) :
    unpack (sourcePack codes) = codes ++ List.replicate (codes.length % 2) 0#4 := by
  induction codes using List.twoStepInduction with
  | nil => rfl
  | singleton c => simp [unpack]
  | cons_cons low high rest ih _ =>
    rw [sourcePack_cons_cons, unpack, lowNibble_append, highNibble_append, ih, List.length_cons, List.length_cons,
      Nat.add_assoc, Nat.add_mod_right]
    rfl

/-- Settles O55: the nibbles left after the codes are none or a single 0. -/
theorem unpackingInvertsPacking : Obligations.UnpackingInvertsPacking := by
  intro codes
  rw [unpack_sourcePack]
  exact ⟨List.take_left, fun heven => by simp [heven], fun hodd => by simp [hodd]⟩


/-! ### PACK and FLUSH (R141, R143) -/

/-- Settles O37, by the two cases of PACK. -/
theorem packPairsCodesLowFirst : Obligations.PackPairsCodesLowFirst := by
  intro c s
  refine ⟨fun hhalf => pack_of_empty hhalf c, fun hhalf => ?_⟩
  have hbyte : BitVec.ofNat 8 (c.toNat <<< 4 ||| s.pkHold.toNat) = c ++ s.pkHold :=
    BitVec.eq_of_toNat_eq (by rw [← BitVec.toNat_append, BitVec.toNat_ofNat, Nat.mod_eq_of_lt (BitVec.isLt _)])
  rw [pack_of_held hhalf, hbyte]

/-- The codes the packer has taken and not yet emitted: the held nibble, when there is one (R25, R26). -/
def pendingCodes (s : State) : List Code := if s.pkHalf then [s.pkHold] else []

theorem pendingCodes_of_empty {s : State} (hhalf : s.pkHalf = false) : pendingCodes s = [] := by simp [pendingCodes, hhalf]

theorem pendingCodes_of_held {s : State} (hhalf : s.pkHalf = true) : pendingCodes s = [s.pkHold] := by
  simp [pendingCodes, hhalf]

/-- PACK moves the boundary between what is emitted and what is pending, and neither loses nor adds a code: whatever codes
follow, the bytes are the source's list of the pending code, this one and those. -/
theorem pack_emits (c : Code) (rest : List Code) (s : State) :
    byteOut (pack c s) ++ sourcePack (pendingCodes (pack c s) ++ rest) =
      byteOut s ++ sourcePack (pendingCodes s ++ c :: rest) := by
  rcases s.pkHalf.eq_false_or_eq_true with hhalf | hhalf
  · rw [pack_of_held hhalf, pendingCodes_of_held hhalf, pendingCodes_of_empty rfl]
    simp [byteOut, bytesOf]
  · rw [pack_of_empty hhalf, pendingCodes_of_empty hhalf, pendingCodes_of_held rfl]
    rfl

/-- FLUSH emits the source's list of the pending code. -/
theorem exec_flush_emits {s t : State} (h : exec .flush s = .next t) :
    byteOut t = byteOut s ++ sourcePack (pendingCodes s) := by
  rcases exec_flush_cases s with ⟨hhalf, he⟩ | ⟨hhalf, he⟩ <;> cases he.symm.trans h
  · simp [pendingCodes_of_empty hhalf]
  · rw [pendingCodes_of_held hhalf, sourcePack_singleton, ← setWidth_code_eq_append]
    exact byteOut_emitByte _ s

/-! ### Sequences of ENC (R144) -/

@[simp] theorem length_encodeCodes (tbl : StepTable) (xs : List Sample) (n : StepIndex) (e : Int) :
    (encodeCodes tbl xs n e).length = xs.length := by
  induction xs generalizing n e with
  | nil => rfl
  | cons x rest ih => exact congrArg (· + 1) (ih ..)

/-- By induction on the samples, each of which PACK turns from a code to come into an emitted or a pending one. -/
theorem execAll_enc_emits (xs : List Sample) {s t : State} (h : execAll (xs.map .enc) s = .next t) :
    byteOut t ++ sourcePack (pendingCodes t) =
      byteOut s ++ sourcePack (pendingCodes s ++ encodeCodes s.stepTable xs s.idx (sext12 s.est)) := by
  induction xs generalizing s with
  | nil => cases h; simp [encodeCodes]
  | cons x rest ih =>
    have hrest := ih (s := pack (encodedCode x s) (applyCode (encodedCode x s) s)) ((execAll_cons rfl).symm.trans h)
    rw [pack_stepTable, pack_idx, pack_est, pack_emits] at hrest
    rw [encodeCodes_cons]
    exact hrest

theorem packedSince_map_enc (n : Nat) (xs : List Sample) : packedSince n (xs.map .enc) = n + xs.length := by
  induction xs generalizing n with
  | nil => rfl
  | cons x rest ih => exact (ih (n + 1)).trans (by rw [List.length_cons]; omega)

/-- From an empty packer a nibble is held exactly after an odd number of samples (R26). -/
theorem execAll_enc_pkHalf (xs : List Sample) {s t : State} (hhalf : s.pkHalf = false)
    (h : execAll (xs.map .enc) s = .next t) : t.pkHalf = decide (xs.length % 2 = 1) := by
  rw [execAll_keeps_parity (xs.map .enc) (n := 0) hhalf h, packedSince_map_enc, Nat.zero_add]

/-- A nibble that a sequence of ENC leaves held is the last code, as `CODE` has it. -/
theorem execAll_enc_holds_last_code (xs : List Sample) {s t : State} (hs : s.pkHalf = true → s.pkHold = s.code)
    (h : execAll (xs.map .enc) s = .next t) : t.pkHalf = true → t.pkHold = t.code := by
  induction xs generalizing s with
  | nil => cases h; exact hs
  | cons x rest ih =>
    refine ih ?_ ((execAll_cons (rfl : exec (.enc x) s = _)).symm.trans h)
    rcases pack_cases (encodedCode x s) (applyCode (encodedCode x s) s) with ⟨-, hp⟩ | ⟨-, hp⟩ <;> rw [hp]
    · exact fun _ => rfl
    · exact nofun

/-- ENC of any samples from an empty packer and then FLUSH emit the source's list of their codes. -/
theorem execAll_enc_flush_emits (xs : List Sample) {s : State} (hhalf : s.pkHalf = false) :
    ∃ t u, execAll (xs.map .enc) s = .next t ∧ exec .flush t = .next u ∧
      byteOut u = byteOut s ++ sourcePack (encodeCodes s.stepTable xs s.idx (sext12 s.est)) := by
  obtain ⟨t, ht⟩ := execAll_answers_next (xs.map .enc) s
  obtain ⟨u, hu⟩ := exec_answers_next .flush t
  refine ⟨t, u, ht, hu, ?_⟩
  rw [exec_flush_emits hu, execAll_enc_emits xs ht, pendingCodes_of_empty hhalf, List.nil_append]

/-- Before FLUSH the source's list is emitted but for the byte of an odd last code (R144). -/
theorem byteOut_before_flush (xs : List Sample) {s t : State} (hhalf : s.pkHalf = false)
    (h : execAll (xs.map .enc) s = .next t) :
    byteOut t = byteOut s ++
      (if xs.length % 2 = 1 then (sourcePack (encodeCodes s.stepTable xs s.idx (sext12 s.est))).dropLast
        else sourcePack (encodeCodes s.stepTable xs s.idx (sext12 s.est))) := by
  have hemits := execAll_enc_emits xs h
  have hparity := execAll_enc_pkHalf xs hhalf h
  rw [pendingCodes_of_empty hhalf, List.nil_append] at hemits
  split
  case isTrue hodd =>
    have hne : sourcePack (encodeCodes s.stepTable xs s.idx (sext12 s.est)) ≠ [] :=
      List.ne_nil_of_length_pos (by rw [length_sourcePack, length_encodeCodes]; omega)
    rw [pendingCodes_of_held (by rw [hparity, hodd]; rfl), sourcePack_singleton] at hemits
    rw [← List.dropLast_append_of_ne_nil hne, ← hemits, List.dropLast_concat]
  case isFalse heven =>
    rw [pendingCodes_of_empty (by rw [hparity]; exact decide_eq_false heven)] at hemits
    simpa using hemits

/-- Settles O52, by what ENC and FLUSH emit, and the closed form of the source's list. -/
theorem packerEmitsSourceList : Obligations.PackerEmitsSourceList := by
  intro xs s hhalf codes bytes
  obtain ⟨t, u, ht, hu, hbytes⟩ := execAll_enc_flush_emits xs hhalf
  have hlen : codes.length = xs.length := length_encodeCodes ..
  exact ⟨t, u, ht, hu, hbytes, byteOut_before_flush xs hhalf ht, hlen, fun k hk => sourcePack_getElem? (hlen.symm ▸ hk)⟩

/-- Settles O53: the source's list has half as many bytes as codes, rounded up, and INIT leaves nothing to flush. -/
theorem byteCountIsHalfRoundedUp : Obligations.ByteCountIsHalfRoundedUp := by
  refine ⟨fun xs s hhalf => ?_, fun s => ⟨clearConversion s, rfl, rfl⟩⟩
  obtain ⟨t, u, ht, hu, hbytes⟩ := execAll_enc_flush_emits xs hhalf
  refine ⟨u, (execAll_append ht).trans (execAll_cons hu), ?_⟩
  rw [hbytes, List.length_append, length_sourcePack, length_encodeCodes]

/-- Settles O54: the tail byte is the nibble FLUSH finds held, and three codes pack into two bytes. -/
theorem oddTailHighNibbleZero : Obligations.OddTailHighNibbleZero := by
  refine ⟨fun xs s hhalf hodd => ?_, fun x y z s hhalf => ?_⟩
  · obtain ⟨t, ht⟩ := execAll_answers_next (xs.map .enc) s
    obtain ⟨u, hu⟩ := exec_answers_next .flush t
    have hheld : t.pkHalf = true := by rw [execAll_enc_pkHalf xs hhalf ht, hodd]; rfl
    have hcode : t.pkHold = t.code :=
      execAll_enc_holds_last_code xs (fun hs => absurd (hs.symm.trans hhalf) nofun) ht hheld
    refine ⟨t, u, ht, hu, ?_⟩
    rw [exec_flush_emits hu, pendingCodes_of_held hheld, hcode, sourcePack_singleton, List.getLast?_concat]
  · obtain ⟨t, u, ht, hu, hbytes⟩ := execAll_enc_flush_emits [x, y, z] hhalf
    simp only [encodeCodes, sourcePack_cons_cons, sourcePack_singleton] at hbytes
    exact ⟨u, _, _, (execAll_append (b := [.flush]) ht).trans (execAll_cons hu), hbytes, highNibble_append _ _⟩

/-! ### FLUSH: its encoding, exception and example (R143) -/

/-- The example of R111: the code of the sample 100 from estimate 0 at a step of 16. -/
theorem encodedCode_hundred {s : State} (he : s.est = 0#12) (hss : stepSize s.stepTable s.idx = 16) :
    encodedCode 100 s = 7#4 := by
  rw [encodedCode, quantize, he, hss]; decide

/-- Settles O36, by the two cases of FLUSH, the ENC after it, and the one code of the example. -/
theorem flushEmitsPendingByte : Obligations.FlushEmitsPendingByte := by
  refine ⟨fun s hhalf => ?held, fun s hhalf => exec_flush_of_empty hhalf, fun s => ?next, rfl, by decide,
    fun x hx => ?reserved, fun s h16 => ?oneSample⟩
  case held => rw [exec_flush_of_held hhalf, setWidth_code_eq_append]; rfl
  case next =>
    obtain ⟨t, ht⟩ := exec_answers_next .flush s
    have hempty : t.pkHalf = false := exec_pkHalf ht
    refine ⟨t, ht, hempty, exec_flush_of_empty hempty, fun x => ⟨_, rfl, ?_⟩⟩
    rw [pack_of_empty (s := applyCode _ t) hempty]
    exact ⟨rfl, rfl, rfl⟩
  case reserved =>
    exact decode_of_reserved_field (m := .flush) (n := 12) (by rwa [operandBits, BitVec.extractLsb'_eq_self])
  case oneSample =>
    obtain ⟨t, u, ht, hu, hbytes⟩ := execAll_enc_flush_emits [100] (s := clearConversion s) rfl
    rw [encodeCodes_cons, encodedCode_hundred rfl h16] at hbytes
    exact ⟨u, (execAll_cons rfl).trans ((execAll_append (b := [.flush]) ht).trans (execAll_cons hu)), hbytes⟩

end Sys2Proof.Machine
end

section
/-! PROOFS of 42_control.md. The command step of R160 on each kind of word; the frame of every command (R165); NOP (R161) and INIT
(R162 to R164) with their words. -/

namespace Sys2Proof.Machine

open Laws.EncodedOpcode (opOf)

/-! ### The command step (R160) -/

theorem commandStep_of_command {w : CmdWord} {i : Instr} (hdecode : decode w = .command i) (s : State) :
    commandStep w s = exec i s := by rw [commandStep, hdecode]

theorem commandStep_of_rejected {w : CmdWord} {e : CommandError} (hdecode : decode w = .rejected e) (s : State) :
    commandStep w s = .next (raiseError e w s) := by rw [commandStep, hdecode]

theorem reservedMask_eq_getD (op : BitVec 4) :
    [0xFFF#12, 0xFFF#12, 0x000#12, 0xFF0#12, 0xF00#12, 0xFFF#12, 0x000#12, 0xFC0#12].getD op.toNat 0#12 = reservedMask op := by
  revert op; decide

/-- The word of an opcode with a zero operand field names the opcode's row. -/
theorem opOf_injective : Function.Injective opOf := by
  have decodes (m : Mnemonic) : decode (opOf m ++ 0#12 : CmdWord) = .command (commandOf 0#12 m) := by cases m <;> decide
  intro m n h
  have hcommand : commandOf 0#12 m = commandOf 0#12 n :=
    Decoded.command.inj ((decodes m).symm.trans ((congrArg (fun op => decode (op ++ 0#12)) h).trans (decodes n)))
  simpa using congrArg Instr.mnemonic hcommand

theorem opOf_toNat_lt (m : Mnemonic) : (opOf m).toNat < 8 := by cases m <;> decide

/-- Settles O10, by what the decoder answers on the word split into its opcode and its operand field. -/
theorem commandStepChecksThenRuns : Obligations.CommandStepChecksThenRuns := by
  refine forall_word_of_split fun op x s => ?_
  have hop : (op ++ x : CmdWord).extractLsb' 12 4 = op := opcodeOf_append op x
  have hopnd : (op ++ x : CmdWord).extractLsb' 0 12 = x := operandOf_append op x
  simp only [hop, hopnd, reservedMask_eq_getD, extract_append (show 0 + 4 ≤ 12 by decide),
    extract_append (show 0 + 6 ≤ 12 by decide), extract_append (show 0 + 8 ≤ 12 by decide)]
  have raises {e : CommandError} (hd : decode (op ++ x : CmdWord) = .rejected e) :=
    (commandStep_of_rejected hd s).trans (congrArg _ (raiseError_eq e _ s))
  rcases decode_append_cases op x with ⟨h8, hd⟩ | ⟨m, rfl, hm⟩
  · rw [if_pos h8]
    exact raises hd
  rw [if_neg (Nat.not_le_of_lt (opOf_toNat_lt m))]
  rcases hm with ⟨hx, hd⟩ | ⟨hx, rfl, hk, hd⟩ | ⟨hx, hk, hd⟩
  · rw [if_pos hx]
    exact raises hd
  · rw [if_neg (not_not.2 hx), if_pos ⟨rfl, hk⟩]
    exact raises hd
  · rw [if_neg (not_not.2 hx), if_neg fun h => Nat.not_lt_of_le (hk (opOf_injective h.1)) h.2]
    have runs (n : Mnemonic) (hn : opOf m = opOf n) : commandStep (opOf m ++ x) s = exec (commandOf x n) s :=
      opOf_injective hn ▸ commandStep_of_command hd s
    exact ⟨runs .nop, runs .init, runs .enc, runs .dec, runs .decb, runs .flush, runs .ldest, runs .ldidx⟩

/-! ### The frame of every command (R165) -/

@[simp] theorem pcmOut_applyCode (c : Code) (s : State) : pcmOut (applyCode c s) = pcmOut s := rfl

@[simp] theorem pcmOut_pack (c : Code) (s : State) : pcmOut (pack c s) = pcmOut s := by
  rcases pack_cases c s with ⟨-, h⟩ | ⟨-, h⟩ <;> simp [h, pcmOut, samplesOf]

@[simp] theorem decodeOne_pkHold (c : Code) (s : State) : (decodeOne c s).pkHold = s.pkHold := rfl
@[simp] theorem decodeOne_pkHalf (c : Code) (s : State) : (decodeOne c s).pkHalf = s.pkHalf := rfl
@[simp] theorem byteOut_decodeOne (c : Code) (s : State) : byteOut (decodeOne c s) = byteOut s := byteOut_emitSample _ _

/-- Settles O38: what no command writes is known of every command; the rest is the frame of each command's own updates. -/
theorem commandsChangeOnlyWhatTheyAssign : Obligations.CommandsChangeOnlyWhatTheyAssign := by
  intro i s hi
  obtain ⟨t, ht⟩ := exec_answers_next i s
  obtain ⟨herr, hcause, herrCmd⟩ := exec_keeps_error_registers hi ht
  refine ⟨t, ht, herr, hcause, herrCmd, exec_keeps_stepTable ht, exec_keeps_port ht, ?_⟩
  cases i with
  | nop => cases ht; simp
  | init | ldest => cases ht; simp [Instr.mnemonic, byteOut, pcmOut]
  | enc | dec | decb => cases ht; simp [Instr.mnemonic]
  | flush =>
    rcases exec_flush_cases s with ⟨-, he⟩ | ⟨-, he⟩ <;> cases he.symm.trans ht
    · simp
    · simp [Instr.mnemonic, pcmOut, samplesOf]
  | ldidx k =>
    cases (exec_ldidx_of_le (of_decide_eq_true hi) s).symm.trans ht
    simp [Instr.mnemonic, byteOut, pcmOut]

/-! ### NOP and INIT (R161 to R164) -/

/-- Of the words of a format without operand only the one with a zero operand field is not rejected (R62, R64). -/
theorem decode_of_nonzero_operand {m : Mnemonic} (hm : operandBits m = 0) {x : BitVec 12} (hx : x ≠ 0#12) :
    decode (opOf m ++ x : CmdWord) = .rejected .reservedBits := by
  refine decode_of_reserved_field (n := 12) ?_
  rwa [hm, BitVec.extractLsb'_eq_self]

/-- Settles O29: the words of opcode 0 are NOP's format, which has no operand. -/
theorem nopChangesNothing : Obligations.NopChangesNothing :=
  ⟨fun _ => rfl, rfl, decode_encode (i := .nop) rfl, fun _ => decode_of_nonzero_operand (m := .nop) rfl⟩

/-- STATUS bits 31:27 hold the error registers `CAUSE` and `ERR` (R30). -/
theorem statusWord_errorBits (s : State) : (statusWord s).extractLsb' 27 5 = s.cause.value ++ BitVec.ofBool s.err := by
  unfold statusWord
  iterate 5 rw [BitVec.extractLsb'_append_eq_of_le (by decide)]
  exact BitVec.extractLsb'_eq_self

/-- With the conversion cleared, STATUS shows the error registers above 27 zero bits (R163, R164). -/
theorem statusWord_clearConversion (s : State) :
    statusWord (clearConversion s) = s.cause.value ++ BitVec.ofBool s.err ++ 0#27 := by
  have clearedFields : ∀ (cause : BitVec 4) (err : BitVec 1),
      cause ++ err ++ 0#1 ++ 0#4 ++ 0#4 ++ 0#6 ++ 0#12 = cause ++ err ++ 0#27 := by decide
  exact clearedFields _ _

/-- Settles O30: INIT clears the conversion and keeps the error registers, and its format has no operand. -/
theorem initClearsConversion : Obligations.InitClearsConversion := by
  refine ⟨fun s => ⟨clearConversion s, rfl, rfl, rfl, ?low, ?high⟩, rfl, decode_encode (i := .init) rfl,
    fun _ => decode_of_nonzero_operand (m := .init) rfl⟩
  case low =>
    rw [statusWord_clearConversion]
    exact BitVec.extractLsb'_append_eq_right
  case high => rw [statusWord_errorBits, statusWord_errorBits, clearConversion_cause, clearConversion_err]

end Sys2Proof.Machine
end

section
/-! PROOFS of 60_exceptions.md. Which cause a rejected word has, by the conditions of R201 and R202; what the step at a rejected
word does (R203, R204) and that no step stops the engine (R200); who clears the error registers (R205); and the step from
two states that differ in the error registers only. -/

namespace Sys2Proof.Machine

open Laws.EncodedOpcode (opOf)

/-! ### The cause of a rejected word (R201, R202) -/

/-- A row's reserved bits are the bits of the operand field above those its format reads (R62). -/
theorem reserved_eq_zero_iff_field (m : Mnemonic) (x : BitVec 12) :
    x &&& reservedMask (opOf m) = 0#12 ↔ x.extractLsb' (operandBits m) (12 - operandBits m) = 0#_ := by
  have hbits : operandBits m + (12 - operandBits m) = 12 := by cases m <;> rfl
  have hfield : x.toNat / 2 ^ operandBits m < 2 ^ (12 - operandBits m) :=
    Nat.div_lt_of_lt_mul (by rw [← Nat.pow_add, hbits]; exact x.isLt)
  rw [reserved_eq_zero_iff, ← BitVec.toNat_inj, BitVec.extractLsb'_toNat, Nat.shiftRight_eq_div_pow,
    Nat.mod_eq_of_lt hfield, BitVec.toNat_zero, Nat.div_eq_zero_iff_lt (Nat.two_pow_pos _)]

/-- The condition of cause 2 by opcode and reserved field (R62, R201). -/
def ReservedFieldSet (op : BitVec 4) (x : BitVec 12) : Prop :=
  op ∈ [0x0#4, 0x1#4, 0x5#4] ∧ x ≠ 0#12 ∨ op = 0x3#4 ∧ x.extractLsb' 4 8 ≠ 0#8 ∨ op = 0x4#4 ∧ x.extractLsb' 8 4 ≠ 0#4 ∨
    op = 0x7#4 ∧ x.extractLsb' 6 6 ≠ 0#6

/-- The condition of cause 2 is that of the mask of R160, row by row. -/
theorem reservedFieldSet_opOf (m : Mnemonic) (x : BitVec 12) :
    ReservedFieldSet (opOf m) x ↔ x &&& reservedMask (opOf m) ≠ 0#12 := by
  rw [ne_eq, reserved_eq_zero_iff_field]
  cases m <;> simp [ReservedFieldSet, opOf, operandBits]

theorem opOf_eq_seven_iff (m : Mnemonic) : opOf m = 0x7#4 ↔ m = .ldidx := opOf_injective.eq_iff (b := .ldidx)

/-- Settles O11, by everything the decoder can answer on the word split into its opcode and its operand field. -/
theorem lowestCauseReported : Obligations.LowestCauseReported := by
  refine ⟨forall_word_of_split fun op x => ?causes, by decide, forall_word_of_split fun op x e h => ?unchecked⟩
  case causes =>
    have hopnd : (op ++ x : CmdWord).extractLsb' 0 12 = x := operandOf_append op x
    simp only [opcodeOf_append, hopnd, extract_append (show 4 + 8 ≤ 12 by decide), extract_append (show 8 + 4 ≤ 12 by decide),
      extract_append (show 6 + 6 ≤ 12 by decide), extract_append (show 0 + 6 ≤ 12 by decide)]
    rw [← ReservedFieldSet]
    rcases decode_append_cases op x with ⟨h8, hd⟩ | ⟨m, rfl, hm⟩
    · simp [hd, h8]
    · have h8 : ¬ 8 ≤ (opOf m).toNat := Nat.not_le_of_lt (opOf_toNat_lt m)
      rw [reservedFieldSet_opOf, opOf_eq_seven_iff]
      rcases hm with ⟨hx, hd⟩ | ⟨hx, rfl, hk, hd⟩ | ⟨hx, hk, hd⟩
      · simp [hd, h8, hx]
      · simpa [hd, h8, hx] using hk
      · simpa [hd, h8, hx] using hk
  case unchecked =>
    rw [opcodeOf_append]
    constructor <;> rintro rfl
    · cases (decode_encode (i := .enc x) rfl).symm.trans h
    · cases (decode_encode (i := .ldest x) rfl).symm.trans h

/-! ### After a rejected word (R200, R203, R204) -/

/-- Settles O22: every command answers a next state, and so does the step at any other input. -/
theorem everyStepGoesOn : Obligations.EveryStepGoesOn := step_answers_next

theorem raiseError_of_err {s : State} (herr : s.err = true) (e : CommandError) (w : CmdWord) : raiseError e w s = s :=
  if_pos herr

/-- Settles O20, by whether an error stood before. -/
theorem errorIsPreciseAndFirstKept : Obligations.ErrorIsPreciseAndFirstKept := by
  intro s w e rest hport hdecode
  refine ⟨fun hsafe => step_records_first_error hsafe hport hdecode, fun herr => ?_⟩
  rw [step_of_rejected hport hdecode, raiseError_of_err (s := { s with port := rest }) herr]

theorem step_of_port {s : State} {x : HostInput} {rest : List HostInput} (hport : s.port = x :: rest) :
    step s = inputStep x { s with port := rest } := by simp only [step, takeInput_cons hport]

/-- Settles O21: raising the error leaves the inputs after the rejected word on the port. -/
theorem engineGoesOnAfterError : Obligations.EngineGoesOnAfterError := by
  intro s w e x rest hport hdecode
  have hnext := raiseError_port e w { s with port := x :: rest }
  exact ⟨_, step_of_rejected hport hdecode, hnext, rfl, step_of_port hnext⟩

/-! ### Clearing the error registers (R205) -/

/-- Settles O23, by the four things a step can be: idle, a hardware reset, a rejected word or a command. -/
theorem onlyResetClearsErrors : Obligations.OnlyResetClearsErrors := by
  refine ⟨fun s t herr hnoreset h => ?_, fun s rest hport => ⟨_, step_of_reset hport, rfl, rfl, rfl⟩⟩
  rcases step_cases s with ⟨-, hst⟩ | ⟨rest, hport, -⟩ | ⟨w, e, rest, -, -, hst⟩ | ⟨w, i, rest, -, hd, hst⟩
  · cases hst.symm.trans h; exact ⟨herr, rfl, rfl⟩
  · exact absurd (congrArg List.head? hport) hnoreset
  · rw [raiseError_of_err (s := { s with port := rest }) herr] at hst
    cases hst.symm.trans h; exact ⟨herr, rfl, rfl⟩
  · obtain ⟨hkeep, hcause, herrCmd⟩ := exec_keeps_error_registers (wellFormed_of_decode hd) (hst.symm.trans h)
    exact ⟨hkeep.trans herr, hcause, herrCmd⟩

/-! ### Two runs that differ in the error registers (R203, R204) -/

/-- The error registers with any values in them. -/
def withErrors (b : Bool) (c : Cause) (w : CmdWord) (s : State) : State := { s with err := b, cause := c, errCmd := w }

/-- Two states that only the error registers tell apart. -/
def SameButErrors (t u : State) : Prop := withErrors t.err t.cause t.errCmd u = t

/-- PACK neither reads nor writes the error registers (R141). -/
theorem pack_withErrors (c : Code) (b : Bool) (cause : Cause) (w : CmdWord) (s : State) :
    pack c (withErrors b cause w s) = withErrors b cause w (pack c s) := by
  rcases s.pkHalf.eq_false_or_eq_true with hhalf | hhalf
  · rw [pack_of_held hhalf, pack_of_held (s := withErrors b cause w s) hhalf]; rfl
  · rw [pack_of_empty hhalf, pack_of_empty (s := withErrors b cause w s) hhalf]; rfl

/-- Raising an error leaves a difference in the error registers alone (R203). -/
theorem sameButErrors_raiseError (e : CommandError) (v : CmdWord) (b : Bool) (c : Cause) (w : CmdWord) (s : State) :
    SameButErrors (raiseError e v s) (raiseError e v (withErrors b c w s)) := by
  simp only [raiseError_eq]; rfl

/-- From states that differ in the error registers only, a command leaves states that differ in them at most. -/
theorem exec_withErrors (i : Instr) (b : Bool) (c : Cause) (w : CmdWord) (s : State) :
    ∃ t u, exec i s = .next t ∧ exec i (withErrors b c w s) = .next u ∧ SameButErrors t u := by
  cases i with
  | nop | init | dec | decb | ldest => exact ⟨_, _, rfl, rfl, rfl⟩
  | enc x =>
    exact ⟨_, _, rfl, congrArg Host.Outcome.next (pack_withErrors (encodedCode x s) b c w (applyCode _ s)), rfl⟩
  | flush =>
    rcases s.pkHalf.eq_false_or_eq_true with hhalf | hhalf
    · exact ⟨_, _, exec_flush_of_held hhalf, exec_flush_of_held (s := withErrors b c w s) hhalf, rfl⟩
    · exact ⟨_, _, exec_flush_of_empty hhalf, exec_flush_of_empty (s := withErrors b c w s) hhalf, rfl⟩
  | ldidx k =>
    rcases Nat.lt_or_ge 48 k.toNat with hk | hk
    · exact ⟨_, _, exec_ldidx_of_gt hk s, exec_ldidx_of_gt hk _, sameButErrors_raiseError ..⟩
    · exact ⟨_, _, exec_ldidx_of_le hk s, exec_ldidx_of_le hk _, rfl⟩

/-- From states that differ in the error registers only, a step leaves states that differ in them at most. -/
theorem step_withErrors (s : State) (b : Bool) (c : Cause) (w : CmdWord) :
    ∃ t u, step s = .next t ∧ step (withErrors b c w s) = .next u ∧ SameButErrors t u := by
  rcases step_cases s with ⟨hport, hst⟩ | ⟨rest, hport, hst⟩ | ⟨v, e, rest, hport, hd, hst⟩ | ⟨v, i, rest, hport, hd, hst⟩
  · exact ⟨_, _, hst, stepHoldsStateWhenNothingIssued (withErrors b c w s) hport, rfl⟩
  · exact ⟨_, _, hst, step_of_reset (s := withErrors b c w s) hport, rfl⟩
  · exact ⟨_, _, hst, step_of_rejected (s := withErrors b c w s) hport hd, sameButErrors_raiseError ..⟩
  · obtain ⟨t, u, ht, hu, htu⟩ := exec_withErrors i b c w { s with port := rest }
    exact ⟨t, u, hst.trans ht, (step_of_command (s := withErrors b c w s) hport hd).trans hu, htu⟩

/-- Settles O25, by the four things a step can be: idle, a hardware reset, a rejected word or a command. -/
theorem errorRegistersInfluenceNothingElse : Obligations.ErrorRegistersInfluenceNothingElse := step_withErrors

end Sys2Proof.Machine
end

section
/-! PROOFS of 70_reset_and_hazards.md. Hardware reset (R220) and how it differs from INIT (R221); what DECB makes of the padding
nibble in the tail byte of an odd-length stream (R226). -/

namespace Sys2Proof.Machine

/-! ### Hardware reset and INIT (R220, R221) -/

/-- Settles O15: what INIT writes, and the error registers. -/
theorem hardwareResetSetsRegisters : Obligations.HardwareResetSetsRegisters :=
  fun s => ⟨congrArg sext12 (hardwareReset_est s), rfl⟩

/-- INIT writes what hardware reset writes but for the error registers (R221). -/
theorem sameButErrors_clearConversion_hardwareReset (s : State) : SameButErrors (clearConversion s) (hardwareReset s) := rfl

/-- Settles O17: INIT is the cleared conversion, which hardware reset follows by clearing the error registers. -/
theorem resetDiffersFromInitInErrorsOnly : Obligations.ResetDiffersFromInitInErrorsOnly :=
  fun s => ⟨hardwareReset_err s, hardwareReset_cause s, hardwareReset_errCmd s,
    congrArg Host.Outcome.next (sameButErrors_clearConversion_hardwareReset s).symm⟩

/-! ### The padding of the tail byte (R226) -/

/-- DECB of a byte given by its nibbles decodes the low one first (R113). -/
theorem exec_decb_append (high low : Code) (s : State) :
    exec (.decb (high ++ low)) s = .next (decodeOne high (decodeOne low s)) := by
  show Host.Outcome.next (decodeOne (highNibble (high ++ low)) (decodeOne (lowNibble (high ++ low)) s)) = _
  rw [highNibble_append, lowNibble_append]

/-- A code of magnitude 0 to 3 takes the index down by one, and no further than 0 (R101, R106). -/
theorem applyCode_idx_val_of_low {c : Code} (hc : c.toNat % 8 ≤ 3) (s : State) :
    (applyCode c s).idx.val = s.idx.val - 1 := by
  have hidx := applyCode_idx_val c s
  have hbound : s.idx.val < 49 := s.idx.isLt
  rw [stepAdjust_of_low hc, clamp_eq_max_min (by decide)] at hidx
  omega

/-- Settles O56: beyond DEC of the low nibble, DECB decodes the padding as code 0, whose `delta` is an eighth of the step. -/
theorem tailPaddingDecodesAsCodeZero : Obligations.TailPaddingDecodesAsCodeZero := by
  intro s c
  exact ⟨decodeOne c s, decodeOne 0#4 (decodeOne c s), rfl, exec_decb_append 0#4 c s, pcmOut_decodeOne 0#4 _,
    sext12_applyCode_est 0#4 (decodeOne c s), applyCode_idx_val_of_low (by decide) (decodeOne c s)⟩

end Sys2Proof.Machine
end
